-- ==== Sys2Proof/Word.lean ====
section
/-! DEFINITION. The word types: R4 fixes 32-bit words and 8-bit bytes, R61 the 35-bit operation word. -/

namespace Sys2Proof

/-- A 32-bit unsigned value: `H`, `P`, `RESULT`, `LENR`, `seed`, `len` and every intermediate word (R4). -/
abbrev Word := BitVec 32

/-- An 8-bit unsigned value of the key (R4, R40, R82). -/
abbrev Byte := BitVec 8

/-- A 35-bit operation word: the opcode in bits 34:32, the argument in bits 31:0 (R61). -/
abbrev OpWord := BitVec 35

end Sys2Proof
end

