-- ==== Sys2Proof/Syntax.lean ====
section
/-! DEFINITION. The operations (one constructor per row of spec/opcode_table.json), the causes of
`IllegalOp`, and the assembler's lines (R67, R68). -/

namespace Sys2Proof

/-- The eight operations of R62. Operands are as R63 assembles them. -/
inductive Instr where
  /-- `nop` (R101). -/
  | nop
  /-- `init seed` (R100). -/
  | init (seed : Word)
  /-- `block` (R110). -/
  | block
  /-- `tail 0` (R121). -/
  | tail0
  /-- `tail 1` (R122). -/
  | tail1
  /-- `tail 2` (R123). -/
  | tail2
  /-- `tail 3` (R124). -/
  | tail3
  /-- `final len` (R130). -/
  | final (len : Word)
  deriving DecidableEq, Repr

/-- Why a word is illegal: the values of `ECAUSE` other than `00` that are ever produced (R25, R161, U9). -/
inductive Cause where
  /-- Code `01`: opcode 5, 6 or 7. -/
  | reservedOpcode
  /-- Code `10`: a must-be-zero argument bit was 1 in a word with a defined opcode. -/
  | reservedBits
  deriving DecidableEq, Repr

/-- A line of assembly (R67) or a pseudo-instruction (R68), with its numbers as written. -/
inductive AsmLine where
  | nop
  | init (seed : Nat)
  | block
  | tail (n : Nat)
  | final (len : Nat)
  /-- `.word 0x<9 hex digits>`: any operation word, an illegal one too. -/
  | word (w : Nat)
  /-- `hash <seed>, <len>`. -/
  | hash (seed len : Nat)
  /-- `hash <len>`, the convenience form with seed 0. -/
  | hashDefault (len : Nat)
  deriving DecidableEq, Repr

end Sys2Proof
end

