-- ==== Sys2Proof/WellFormed.lean ====
section
/-! DEFINITION. Well-formedness of assembly lines and of instructions. -/

namespace Sys2Proof

/-- The ranges R67 gives the operands of a line; a line outside them is an assembly error (R67 of
`tail`; DEDUCED of the others, log 15). -/
def AsmLine.wellFormed : AsmLine → Bool
  | .nop => true
  | .init seed => decide (seed < 2 ^ 32)
  | .block => true
  | .tail n => decide (n < 4)
  | .final len => decide (len < 2 ^ 32)
  | .word w => decide (w < 2 ^ 35)
  | .hash seed len => decide (seed < 2 ^ 32) && decide (len < 2 ^ 32)
  | .hashDefault len => decide (len < 2 ^ 32)

/-- Every term of `Instr` is well formed: R63 makes every 32-bit `seed` and `len` legal, the operand types
carry the width, and each count of `tail` is a constructor of its own. -/
def Instr.wellFormed : Instr → Bool
  | .nop => true
  | .init _ => true
  | .block => true
  | .tail0 => true
  | .tail1 => true
  | .tail2 => true
  | .tail3 => true
  | .final _ => true

end Sys2Proof
end

