-- ==== Sys2Proof/Decode.lean ====
section
/-! DEFINITION. The decoder of R69, total on operation words, the encoder of R62, and the opcode table's
match and mask rows. -/

namespace Sys2Proof

/-- What a word decodes to (R69): an operation, or a rejection that names its cause. -/
inductive Decoded where
  | legal (i : Instr)
  | illegal (c : Cause)
  deriving DecidableEq, Repr

/-- `op`, bits 34:32 (R61). -/
def opField (w : OpWord) : BitVec 3 := w.extractLsb' 32 3

/-- `arg`, bits 31:0 (R61). -/
def argField (w : OpWord) : Word := w.extractLsb' 0 32

/-- The word with the given fields, `op * 2^32 + arg` (R61). -/
def opWord (op : BitVec 3) (arg : Word) : OpWord := op ++ arg

/-- The four variants of `tail`, selected by `arg[1:0]` (R62, R63). -/
def tailOf (n : BitVec 2) : Instr :=
  match n.toNat with
  | 0 => .tail0
  | 1 => .tail1
  | 2 => .tail2
  | _ => .tail3

/-- The decoder of R69. -/
def decode (w : OpWord) : Decoded :=
  match (opField w).toNat with
  | 0 => if argField w = 0 then .legal .nop else .illegal .reservedBits
  | 1 => .legal (.init (argField w))
  | 2 => if argField w = 0 then .legal .block else .illegal .reservedBits
  | 3 =>
    if (argField w).extractLsb' 2 30 = 0 then .legal (tailOf ((argField w).extractLsb' 0 2))
    else .illegal .reservedBits
  | 4 => .legal (.final (argField w))
  | _ => .illegal .reservedOpcode

/-- The word of an operation, from the opcode map of R62. -/
def encode : Instr → OpWord
  | .nop => opWord 0 0
  | .init seed => opWord 1 seed
  | .block => opWord 2 0
  | .tail0 => opWord 3 0
  | .tail1 => opWord 3 1
  | .tail2 => opWord 3 2
  | .tail3 => opWord 3 3
  | .final len => opWord 4 len

/-- A row of spec/opcode_table.json: a word selects it when the bits under `mask` are `fixed` (R62). -/
structure TableRow where
  mnemonic : String
  fixed : OpWord
  mask : OpWord
  deriving DecidableEq, Repr

/-- The eight rows, `match` and `mask` as the table writes them. -/
def tableRows : List TableRow :=
  [⟨"nop", 0x000000000, 0x7FFFFFFFF⟩, ⟨"init", 0x100000000, 0x700000000⟩,
   ⟨"block", 0x200000000, 0x7FFFFFFFF⟩, ⟨"tail_0", 0x300000000, 0x7FFFFFFFF⟩,
   ⟨"tail_1", 0x300000001, 0x7FFFFFFFF⟩, ⟨"tail_2", 0x300000002, 0x7FFFFFFFF⟩,
   ⟨"tail_3", 0x300000003, 0x7FFFFFFFF⟩, ⟨"final", 0x400000000, 0x700000000⟩]

/-- `(w AND mask) = match` (R62). -/
def TableRow.selectedBy (r : TableRow) (w : OpWord) : Bool := decide (w &&& r.mask = r.fixed)

/-- The table's name of an operation. -/
def mnemonicOf : Instr → String
  | .nop => "nop"
  | .init _ => "init"
  | .block => "block"
  | .tail0 => "tail_0"
  | .tail1 => "tail_1"
  | .tail2 => "tail_2"
  | .tail3 => "tail_3"
  | .final _ => "final"

/-- The instruction the decoder reads from the word with bits `w`. A word has 35 bits (R61); the table's
rows come in whole bytes, so the bits of `w` above them must be 0. -/
def decodeTableWord (_nbits w : Nat) : Option Instr :=
  if w < 2 ^ 35 then
    match decode (BitVec.ofNat 35 w) with
    | .legal i => some i
    | .illegal _ => none
  else none

end Sys2Proof
end

