-- ==== Sys2Proof/Config.lean ====
section
/-! DEFINITION. The free values: what the spec leaves unspecified while the machine goes on.
They have no body, so a proof holds whatever they are. Each is applied to the draw counter of State. -/

namespace Sys2Proof

/-- The unspecified words after reset (R36, R180, U3), one for each draw number. DESIGN CHOICE, log 1. -/
opaque Config.freeWord : Nat → Word

/-- The unspecified byte that `MemRead` returns at an address at or above `KLEN` (R48, U5): draw number,
then address. DESIGN CHOICE, log 2. -/
opaque Config.freeByte : Nat → Nat → Byte

end Sys2Proof
end

