-- ==== Sys2Proof/Machine/State.lean ====
section
/-! DEFINITION. The machine's state as plain data, its reset value, and the reasons a step can stop. -/

namespace Sys2Proof.Machine

/-- `PHASE` (R28). -/
inductive Phase where
  /-- `00`: no computation started since reset. -/
  | idle
  /-- `01`: blocks and tail still to issue. -/
  | absorb
  /-- `10`: the `FINAL` operation still to issue. -/
  | final
  /-- `11`: a computation has finished and none has started since. -/
  | done
  deriving DecidableEq, Repr

/-- What a host can do to the block (R140, R190), reading its outputs apart. -/
inductive HostMove where
  /-- Asserts `reset` (R180). -/
  | reset
  /-- Presents `start` with `seed` and `len` (R141). -/
  | start (seed len : Word)
  /-- Places a key: `bytes` at key addresses `0, 1, ...`, so that `KLEN` is their number (R6, R40, R190). -/
  | fillKey (bytes : List Byte)
  deriving DecidableEq, Repr

/-- Whose turn a step is. -/
inductive Turn where
  /-- The block takes its own step (R142 to R144), or waits. -/
  | block
  /-- The host makes a move. -/
  | host (m : HostMove)
  /-- In direct drive, a harness presents a word on the operation port (R60). -/
  | present (w : OpWord)
  deriving DecidableEq, Repr

/-- The state of the block and of its surroundings. -/
structure State where
  /-- `H`, the hash accumulator (R20). -/
  h : Word
  /-- `P`, the processed-length counter (R21). -/
  p : Word
  /-- `RESULT` (R22). -/
  result : Word
  /-- `VALID` (R23). -/
  valid : Bool
  /-- `ERR`, the sticky fault flag (R24). -/
  err : Bool
  /-- `ECAUSE`: `none` is code `00`, no fault (R25). -/
  ecause : Option Cause
  /-- `PHASE` (R28). -/
  phase : Phase
  /-- `LENR`, the latched length (R29). -/
  lenr : Word
  /-- The key memory (R34, R40): one cell for each address `0 .. KLEN-1`, in rising order. -/
  key : List Host.Cell
  /-- The model's own: the turns still to be taken, next first; when it is empty the block moves (log 5). -/
  turns : List Turn
  /-- The model's own: how many free values have been drawn (logs 1, 2, 11). -/
  draws : Nat
  deriving DecidableEq, Repr

/-- Why the machine stops. No operation of the block raises one: `IllegalOp` is a next state (R161). -/
inductive Fault where
  /-- Raised by the host's `fillKey` with more than `2^32 - 1` bytes: the last of them would stand at an
  address the key memory does not have (R6, R47). Safe: the machine stops. -/
  | keyTooLong
  deriving DecidableEq, Repr

/-- What the model gives no meaning. -/
inductive Refusal where
  /-- Raised by an arm of `exec` for an instruction without a meaning; no arm is left. Safe. -/
  | notModelled (mnemonic : String)
  /-- Raised by the host's `fillKey` while `BUSY = 1`: the host has no such move (R52, R140, U6). Safe: the
  machine stops. -/
  | keyWriteWhileBusy
  deriving DecidableEq, Repr

/-- The state right after the power-up reset (R36, R180). `H`, `P`, `RESULT` and `LENR` are unspecified and
hold the free words of draws 0 to 3 (DESIGN CHOICE, log 1); no key has been placed (log 3). -/
def State.reset : State where
  h := Config.freeWord 0
  p := Config.freeWord 1
  result := Config.freeWord 2
  valid := false
  err := false
  ecause := none
  phase := .idle
  lenr := Config.freeWord 3
  key := []
  turns := []
  draws := 4

end Sys2Proof.Machine
end

