-- ==== Sys2Proof/Machine/Ops.lean ====
section
/-! DEFINITION. The named operations over the state: single-field updates, the key memory and its read
primitive, raising `IllegalOp`, and reset, the only way back from it. -/

namespace Sys2Proof.Machine

/-! ### Single-field updates -/

def State.setH (s : State) (v : Word) : State := { s with h := v }
def State.setP (s : State) (v : Word) : State := { s with p := v }
def State.setResult (s : State) (v : Word) : State := { s with result := v }
def State.setValid (s : State) (v : Bool) : State := { s with valid := v }
def State.setPhase (s : State) (v : Phase) : State := { s with phase := v }
def State.setLenr (s : State) (v : Word) : State := { s with lenr := v }
def State.setKey (s : State) (v : List Host.Cell) : State := { s with key := v }
def State.setTurns (s : State) (v : List Turn) : State := { s with turns := v }

/-- Sets `ERR` and `ECAUSE`, which are always written together (R25). -/
def State.setFault (s : State) (c : Cause) : State := { s with err := true, ecause := some c }

/-- Counts `n` more free values as drawn. -/
def State.draw (s : State) (n : Nat) : State := { s with draws := s.draws + n }

/-! ### The key memory -/

/-- The cells of a key whose first byte stands at address `a`. -/
def Memory.ofBytesFrom (a : Nat) : List Byte → List Host.Cell
  | [] => []
  | b :: bs => (a, b) :: Memory.ofBytesFrom (a + 1) bs

/-- The key memory that holds `bytes`, the first at address 0 (R40). -/
def Memory.ofBytes (bytes : List Byte) : List Host.Cell := Memory.ofBytesFrom 0 bytes

/-- The byte sequence a key memory holds, in address order (R40). -/
def Memory.bytes (m : List Host.Cell) : List Byte := m.map Prod.snd

/-- The byte at an address; an unlisted address holds no byte (R47). -/
def Memory.lookup : List Host.Cell → Nat → Option Byte
  | [], _ => none
  | (a, b) :: m, x => if a = x then some b else Memory.lookup m x

/-- The cells stand at the addresses `a, a + 1, ...`. -/
def Memory.wfFrom (a : Nat) : List Host.Cell → Bool
  | [] => true
  | (x, _) :: m => decide (x = a) && Memory.wfFrom (a + 1) m

/-- The canonical form: one cell for each address `0 .. KLEN-1` in rising order (R40, R47), `KLEN` at most
`2^32 - 1` (R6). -/
def Memory.wf (m : List Host.Cell) : Bool := Memory.wfFrom 0 m && decide (m.length < 2 ^ 32)

/-- `KLEN`, the number of bytes the host has placed (R6, R40). -/
def State.klen (s : State) : Nat := s.key.length

/-- `MemRead(addr, 1)` (R41). At an address at or above `KLEN` the byte is unspecified and nothing is raised
(R48): a free byte. -/
def State.memRead (s : State) (addr : Nat) : Byte :=
  match Memory.lookup s.key addr with
  | some b => b
  | none => Config.freeByte s.draws addr

/-- The byte address `P + i`. The sum does not wrap (R53): where `P` was never initialised it may reach
`2^32` and more, which is no key address. -/
def State.keyAddr (s : State) (i : Nat) : Nat := s.p.toNat + i

/-! ### The operation port's guard, the fault and its exit -/

/-- Executes an operation's effect when `ERR = 0`; while `ERR = 1` the datapath ignores it (R163). -/
def datapath (effect : State → State) (s : State) : Host.Outcome State Fault Refusal :=
  .next (if s.err then s else effect s)

/-- `raise IllegalOp(cause)` (R161): sets the flag and the cause and nothing else. It saves nothing and goes
nowhere (R167); when `ERR` is already 1 the first cause stays (R163, R166). -/
def raiseIllegalOp (c : Cause) (s : State) : State := if s.err then s else s.setFault c

/-- `reset` (R180, R36): the only exit from the faulted state (R168). `H`, `P`, `RESULT` and `LENR` become
unspecified: fresh free words (log 1). The key memory is not touched. -/
def applyReset (s : State) : State :=
  { s with
    h := Config.freeWord s.draws
    p := Config.freeWord (s.draws + 1)
    result := Config.freeWord (s.draws + 2)
    valid := false
    err := false
    ecause := none
    phase := .idle
    lenr := Config.freeWord (s.draws + 3)
    draws := s.draws + 4 }

end Sys2Proof.Machine
end

