-- ==== Sys2Proof/Machine/Flags.lean ====
section
/-! DEFINITION. The status side: the codes of `ECAUSE` and `PHASE`, the derived signals of R30, and the
host-side outputs of R31. The block has no arithmetic flags (R32). -/

namespace Sys2Proof.Machine

/-- The 2-bit code of `ECAUSE` (R25). -/
def ecauseCode : Option Cause → BitVec 2
  | none => 0b00
  | some .reservedOpcode => 0b01
  | some .reservedBits => 0b10

/-- The 2-bit code of `PHASE` (R28). -/
def phaseCode : Phase → BitVec 2
  | .idle => 0b00
  | .absorb => 0b01
  | .final => 0b10
  | .done => 0b11

/-- `BUSY = (PHASE = ABSORB) OR (PHASE = FINAL)` (R30). -/
def State.busy (s : State) : Bool := decide (s.phase = .absorb) || decide (s.phase = .final)

/-- `ready = (NOT BUSY) AND (ERR = 0)` (R30). -/
def State.ready (s : State) : Bool := !s.busy && !s.err

/-- The output `valid = (VALID = 1) AND (ERR = 0)` (R30). -/
def State.validOut (s : State) : Bool := s.valid && !s.err

/-- `STATUS[7:0]` (R31): bit 7 is 0, bits 6:5 `PHASE`, bits 4:3 `ECAUSE`, bit 2 `ERR`, bit 1 `BUSY`,
bit 0 `VALID`. -/
def State.status (s : State) : BitVec 8 :=
  0#1 ++ phaseCode s.phase ++ ecauseCode s.ecause ++ BitVec.ofBool s.err ++ BitVec.ofBool s.busy
    ++ BitVec.ofBool s.valid

/-- The output ports the host reads (R31). -/
structure Outputs where
  ready : Bool
  valid : Bool
  result : Word
  err : Bool
  status : BitVec 8
  deriving DecidableEq, Repr

/-- What the host reads in a state (R31). -/
def State.outputs (s : State) : Outputs :=
  ⟨s.ready, s.validOut, s.result, s.err, s.status⟩

end Sys2Proof.Machine
end

