-- ==== Sys2Proof/Machine/Units.lean ====
section
/-! DEFINITION. The four functional units: the primitives of 40_functional_units.md and the wired constants
of R5. All are pure functions of their operands. -/

namespace Sys2Proof.Machine

/-- `c1` (R5). -/
def c1 : Word := 0xcc9e2d51

/-- `c2` (R5). -/
def c2 : Word := 0x1b873593

/-- `m` (R5). -/
def hashMul : Word := 5

/-- `n` (R5). -/
def hashAdd : Word := 0xe6546b64

/-- `f1` (R5). -/
def f1 : Word := 0x85ebca6b

/-- `f2` (R5). -/
def f2 : Word := 0xc2b2ae35

/-- The two rotate amounts the block has (R84, R186). No other amount is expressible (U1). -/
inductive RotAmount where
  /-- `r1`, on the key word. -/
  | r1
  /-- `r2`, on the hash. -/
  | r2
  deriving DecidableEq, Repr

/-- The two right-shift amounts the block has (R85, R186). -/
inductive ShrAmount where
  | s16
  | s13
  deriving DecidableEq, Repr

/-- `r1 = 15`, `r2 = 13` (R5). -/
def rotBits : RotAmount → Nat
  | .r1 => 15
  | .r2 => 13

/-- The finalization shifts (R5). -/
def shrBits : ShrAmount → Nat
  | .s16 => 16
  | .s13 => 13

/-- `zext_32` (R82): never sign-extended. -/
def zext32 (b : Byte) : Word := b.setWidth 32

/-- `LEPACK(b0, b1, b2, b3)`: the byte at the lowest address in bits 7:0 (R80). -/
def lepack4 (b0 b1 b2 b3 : Byte) : Word :=
  zext32 b0 ||| (zext32 b1 <<< 8) ||| (zext32 b2 <<< 16) ||| (zext32 b3 <<< 24)

/-- `LEPACK(b0)` (R81). -/
def lepack1 (b0 : Byte) : Word := zext32 b0

/-- `LEPACK(b0, b1)` (R81). -/
def lepack2 (b0 b1 : Byte) : Word := zext32 b0 ||| (zext32 b1 <<< 8)

/-- `LEPACK(b0, b1, b2)` (R81). -/
def lepack3 (b0 b1 b2 : Byte) : Word := zext32 b0 ||| (zext32 b1 <<< 8) ||| (zext32 b2 <<< 16)

/-- `MAC32(a, b, c) = (a * b + c) mod 2^32` (R83). -/
def mac32 (a b c : Word) : Word := a * b + c

/-- `ROTL32(x, r)`, the shift pair of R84. -/
def rotl32 (x : Word) (r : RotAmount) : Word := (x <<< rotBits r) ||| (x >>> (32 - rotBits r))

/-- `SHR32(x, s)`, logical (R85). -/
def shr32 (x : Word) (s : ShrAmount) : Word := x >>> shrBits s

/-- `FOLD(x, s) = x XOR SHR32(x, s)` (R86). -/
def fold (x : Word) (s : ShrAmount) : Word := x ^^^ shr32 x s

/-- `KMIX(k)`, the key-word mix shared by `block` and `tail` (R87). -/
def kmix (k : Word) : Word := mac32 (rotl32 (mac32 k c1 0) .r1) c2 0

/-- The hash step of `block` on a packed chunk: `x = H XOR KMIX(k)`, rotate by 13, times 5 plus `n` (R110). -/
def blockMix (h k : Word) : Word := mac32 (rotl32 (h ^^^ kmix k) .r2) hashMul hashAdd

/-- The hash step of `tail 1..3` on a packed partial word (R120). -/
def tailMix (h k : Word) : Word := h ^^^ kmix k

/-- The avalanche mix of `final` (R130): `h0` to `h5`. -/
def finalMix (h len : Word) : Word :=
  fold (mac32 (fold (mac32 (fold (h ^^^ len) .s16) f1 0) .s13) f2 0) .s16

end Sys2Proof.Machine
end

