-- ==== Sys2Proof/Machine/Operands.lean ====
section
/-! DEFINITION. The implicit operands: the key words of `block` and `tail`, read at `P` (R44, R63), and the
list of key addresses each operation reads. The explicit operands come from the word (Decode.lean). -/

namespace Sys2Proof.Machine

/-- The byte at `P + i`, as `MemRead` returns it. -/
def State.keyByte (s : State) (i : Nat) : Byte := s.memRead (s.keyAddr i)

/-- The key word of `block`: four bytes at `P .. P+3` (R110). -/
def State.chunkWord (s : State) : Word :=
  lepack4 (s.keyByte 0) (s.keyByte 1) (s.keyByte 2) (s.keyByte 3)

/-- The key word of `tail 1`: one byte at `P` (R122). -/
def State.tailWord1 (s : State) : Word := lepack1 (s.keyByte 0)

/-- The key word of `tail 2`: two bytes at `P`, `P+1` (R123). -/
def State.tailWord2 (s : State) : Word := lepack2 (s.keyByte 0) (s.keyByte 1)

/-- The key word of `tail 3`: three bytes at `P .. P+2` (R124). -/
def State.tailWord3 (s : State) : Word := lepack3 (s.keyByte 0) (s.keyByte 1) (s.keyByte 2)

/-- How many key bytes an operation reads (R44). -/
def readCount : Instr → Nat
  | .nop => 0
  | .init _ => 0
  | .block => 4
  | .tail0 => 0
  | .tail1 => 1
  | .tail2 => 2
  | .tail3 => 3
  | .final _ => 0

/-- The key addresses an operation puts on the read port, in rising order (R35, R44); none while `ERR = 1`
(R163). -/
def keyReads (i : Instr) (s : State) : List Nat :=
  if s.err then [] else (List.range (readCount i)).map s.keyAddr

end Sys2Proof.Machine
end

