-- ==== Sys2Proof/Machine/Block.lean ====
section
/-! DEFINITION. The block family: `block` (42_block.md). -/

namespace Sys2Proof.Machine

/-- `block` (R110, R111): mixes the chunk at `P` into `H` and adds 4 to `P` modulo `2^32`. Its reads count as
one draw of free bytes, one for each address that holds no key byte (log 2). -/
def execBlock (s : State) : Host.Outcome State Fault Refusal :=
  datapath (fun s => ((s.setH (blockMix s.h s.chunkWord)).setP (s.p + 4)).draw 1) s

end Sys2Proof.Machine
end

