-- ==== Sys2Proof/Machine/Finalization.lean ====
section
/-! DEFINITION. The finalization family: `final` (44_finalization.md). -/

namespace Sys2Proof.Machine

/-- `final len` (R130): the avalanche mix of `H XOR len` into `H` and `RESULT`, and `VALID <- 1`. The value
mixed in is the operand, not `P` (R131). -/
def execFinal (len : Word) (s : State) : Host.Outcome State Fault Refusal :=
  datapath
    (fun s => ((s.setH (finalMix s.h len)).setResult (finalMix s.h len)).setValid true) s

end Sys2Proof.Machine
end

