-- ==== Sys2Proof/Machine/Initialization.lean ====
section
/-! DEFINITION. The initialization family: `nop` and `init` (41_initialization.md). -/

namespace Sys2Proof.Machine

/-- `nop` (R101): nothing. -/
def execNop (s : State) : Host.Outcome State Fault Refusal :=
  datapath (fun s => s) s

/-- `init seed` (R100): `H <- seed`, `P <- 0`, `VALID <- 0`. -/
def execInit (seed : Word) (s : State) : Host.Outcome State Fault Refusal :=
  datapath (fun s => ((s.setH seed).setP 0).setValid false) s

end Sys2Proof.Machine
end

