-- ==== Sys2Proof/Machine/Tail.lean ====
section
/-! DEFINITION. The tail family: the four variants of `tail` (43_tail.md). None writes `P` (R120). -/

namespace Sys2Proof.Machine

/-- `tail 0` (R121): nothing; no byte is read. -/
def execTail0 (s : State) : Host.Outcome State Fault Refusal :=
  datapath (fun s => s) s

/-- `tail 1` (R122). -/
def execTail1 (s : State) : Host.Outcome State Fault Refusal :=
  datapath (fun s => (s.setH (tailMix s.h s.tailWord1)).draw 1) s

/-- `tail 2` (R123). -/
def execTail2 (s : State) : Host.Outcome State Fault Refusal :=
  datapath (fun s => (s.setH (tailMix s.h s.tailWord2)).draw 1) s

/-- `tail 3` (R124). -/
def execTail3 (s : State) : Host.Outcome State Fault Refusal :=
  datapath (fun s => (s.setH (tailMix s.h s.tailWord3)).draw 1) s

end Sys2Proof.Machine
end

