-- ==== Sys2Proof/Machine/Dispatch.lean ====
section
/-! DEFINITION. The dispatch of an operation to its meaning, one arm per constructor of Instr. -/

namespace Sys2Proof.Machine

/-- Executes one operation completely (R60). -/
def exec (i : Instr) (s : State) : Host.Outcome State Fault Refusal :=
  match i with
  | .nop => Sys2Proof.Machine.execNop s
  | .init seed => Sys2Proof.Machine.execInit seed s
  | .block => Sys2Proof.Machine.execBlock s
  | .tail0 => Sys2Proof.Machine.execTail0 s
  | .tail1 => Sys2Proof.Machine.execTail1 s
  | .tail2 => Sys2Proof.Machine.execTail2 s
  | .tail3 => Sys2Proof.Machine.execTail3 s
  | .final len => Sys2Proof.Machine.execFinal len s

end Sys2Proof.Machine
end

