-- ==== Sys2Proof/Machine/Port.lean ====
section
/-! DEFINITION. The datapath's operation port (R60): a word presented on it is decoded and executed. -/

namespace Sys2Proof.Machine

/-- Presents one word to the datapath: a legal one is executed, an illegal one raises `IllegalOp` (R60, R69,
R161). The datapath does not know who presents it (R148). -/
def presentWord (w : OpWord) (s : State) : Host.Outcome State Fault Refusal :=
  match decode w with
  | .legal i => exec i s
  | .illegal c => .next (raiseIllegalOp c s)

end Sys2Proof.Machine
end

