-- ==== Sys2Proof/Machine/Sequencer.lean ====
section
/-! DEFINITION. The sequencer (45_sequencer.md): its enabling conditions, its steps R141 to R144, and the
canonical stream. -/

namespace Sys2Proof.Machine

/-- `v[31:2]`: of `P` the number of blocks done, of `LENR` the number wanted (R142). -/
def blockCount (v : Word) : BitVec 30 := v.extractLsb' 2 30

/-- `v[1:0]`: the argument of `tail` (R29, R143). -/
def tailCount (v : Word) : BitVec 2 := v.extractLsb' 0 2

/-- The block is waiting: only an accepted `START` can fire (R147). -/
def State.waiting (s : State) : Bool := decide (s.phase = .idle) || decide (s.phase = .done)

/-- The condition of the block step (R142). -/
def State.blockEnabled (s : State) : Bool :=
  decide (s.phase = .absorb) && decide (blockCount s.p ≠ blockCount s.lenr)

/-- The condition of the tail step (R143). -/
def State.tailEnabled (s : State) : Bool :=
  decide (s.phase = .absorb) && decide (blockCount s.p = blockCount s.lenr)

/-- The condition of the final step (R144). -/
def State.finalEnabled (s : State) : Bool := decide (s.phase = .final)

/-- Issues an operation's word on the operation port (R60, R145) and then sets `PHASE`. -/
def issue (i : Instr) (ph : Phase) (s : State) : Host.Outcome State Fault Refusal :=
  match presentWord (encode i) s with
  | .next t => .next (t.setPhase ph)
  | .fault r => .fault r
  | .refused r => .refused r

/-- An accepted `START` (R141). -/
def acceptStart (seed len : Word) (s : State) : Host.Outcome State Fault Refusal :=
  issue (.init seed) .absorb (s.setLenr len)

/-- `start` presented: accepted when `ready = 1`, otherwise ignored and not remembered (R141, R184). -/
def startMove (seed len : Word) (s : State) : Host.Outcome State Fault Refusal :=
  if s.ready then acceptStart seed len s else .next s

/-- The block's own step: the one rule of R142 to R144 that is enabled, or waiting (R147). While `ERR = 1` no
word has an effect and the run never ends (R163): the sequencer rests (DEDUCED, log 6). -/
def blockTurn (s : State) : Host.Outcome State Fault Refusal :=
  if s.err then .next s
  else if s.blockEnabled then issue .block .absorb s
  else if s.tailEnabled then issue (tailOf (tailCount s.lenr)) .final s
  else if s.finalEnabled then issue (.final s.lenr) .done s
  else .next s

/-- The canonical stream of `START(seed, len)` (R145), which `hash <seed>, <len>` expands to (R68). -/
def canonicalStream (seed len : Word) : List Instr :=
  .init seed :: (List.replicate (len.toNat / 4) .block ++ [tailOf (tailCount len), .final len])

/-- The words of the canonical stream (R145). -/
def canonicalWords (seed len : Word) : List OpWord := (canonicalStream seed len).map encode

end Sys2Proof.Machine
end

