-- ==== Sys2Proof/Machine/Turns.lean ====
section
/-! DEFINITION. The host's moves (R140, R190) and one turn of the whole machine. -/

namespace Sys2Proof.Machine

/-- Placing a key (R40, R190). It is the host's to fill only while `BUSY = 0` (R52, R140): while the block is
busy the move is refused by name (U6, log 4). A key longer than `2^32 - 1` bytes does not fit the address map
(R6, R47). -/
def fillKeyMove (bytes : List Byte) (s : State) : Host.Outcome State Fault Refusal :=
  if s.busy then .refused .keyWriteWhileBusy
  else if bytes.length < 2 ^ 32 then .next (s.setKey (Memory.ofBytes bytes))
  else .fault .keyTooLong

/-- One move of the host. -/
def hostMove (m : HostMove) (s : State) : Host.Outcome State Fault Refusal :=
  match m with
  | .reset => .next (applyReset s)
  | .start seed len => startMove seed len s
  | .fillKey bytes => fillKeyMove bytes s

/-- One turn: the block's, the host's or a harness's. -/
def takeTurn (t : Turn) (s : State) : Host.Outcome State Fault Refusal :=
  match t with
  | .block => blockTurn s
  | .host m => hostMove m s
  | .present w => presentWord w s

/-- The next turn of the list is taken; where none is listed the block moves (log 5). -/
def nextTurn (s : State) : Host.Outcome State Fault Refusal :=
  match s.turns with
  | [] => takeTurn .block s
  | t :: rest => takeTurn t (s.setTurns rest)

/-- Places the word with bits `w` first on the operation port: a harness presents it at the next step. Bits
above the word's 35 name no word (R61), and then nothing is placed. -/
def placeWord (w : Nat) (s : State) : State :=
  if w < 2 ^ 35 then s.setTurns (.present (BitVec.ofNat 35 w) :: s.turns) else s

end Sys2Proof.Machine
end

