-- ==== Sys2Proof/Machine/Step.lean ====
section
/-! DEFINITION. One step of the machine, and how a word comes to be the next one executed. -/

namespace Sys2Proof.Machine

/-- One step: one turn (Turns.lean). -/
def step (s : State) : Host.Outcome State Fault Refusal := nextTurn s

/-- `s` with the instruction of bits `w` where the next step takes it. The block fetches nothing (R27): words
are presented on its port (log 7). -/
def State.withFetchWord (s : State) (_nbits w : Nat) : State := placeWord w s

end Sys2Proof.Machine
end

