-- ==== Sys2Proof/Machine/Assembler.lean ====
section
/-! DEFINITION. The assembler of R67 and R68: from a line of text to an `AsmLine`, and from that to operation
words. -/

namespace Sys2Proof.Machine

/-- The words of a line; a line whose operand is out of range is an assembly error (R67, R68; DEDUCED for
all but `tail`, log 15). -/
def assemble (l : AsmLine) : Option (List OpWord) :=
  if l.wellFormed then
    match l with
    | .nop => some [encode .nop]
    | .init seed => some [encode (.init (BitVec.ofNat 32 seed))]
    | .block => some [encode .block]
    | .tail n => some [encode (tailOf (BitVec.ofNat 2 n))]
    | .final len => some [encode (.final (BitVec.ofNat 32 len))]
    | .word w => some [BitVec.ofNat 35 w]
    | .hash seed len => some (canonicalWords (BitVec.ofNat 32 seed) (BitVec.ofNat 32 len))
    | .hashDefault len => some (canonicalWords 0 (BitVec.ofNat 32 len))
  else none

/-- The value of a digit, hexadecimal digits in either case. -/
def digitValue (c : Char) : Option Nat :=
  let n := c.toNat
  if 48 ≤ n ∧ n ≤ 57 then some (n - 48)
  else if 97 ≤ n ∧ n ≤ 102 then some (n - 87)
  else if 65 ≤ n ∧ n ≤ 70 then some (n - 55)
  else none

/-- The digits of a number in a base, after a value already read. -/
def digitsFrom (base acc : Nat) : List Char → Option Nat
  | [] => some acc
  | c :: cs =>
    match digitValue c with
    | some d => if d < base then digitsFrom base (base * acc + d) cs else none
    | none => none

/-- A number: decimal, or `0x` hexadecimal (R67). -/
def parseNumber : List Char → Option Nat
  | [] => none
  | '0' :: 'x' :: c :: cs => digitsFrom 16 0 (c :: cs)
  | c :: cs => digitsFrom 10 0 (c :: cs)

/-- The argument of `.word`: `0x` and nine hexadecimal digits (R61, R67). -/
def parseWord (t : List Char) : Option Nat :=
  if t.length = 11 ∧ t.take 2 = ['0', 'x'] then parseNumber t else none

/-- A finished token, if any character of it was read. -/
def flushToken (cur : List Char) : List (List Char) := if cur.isEmpty then [] else [cur.reverse]

/-- The tokens of a line: split at blanks, a comma is a token, `#` starts a comment (R67). `cur` is the token
being read, last character first. -/
def tokensFrom (cur : List Char) : List Char → List (List Char)
  | [] => flushToken cur
  | c :: cs =>
    if c = '#' then flushToken cur
    else if c = ' ' ∨ c = '\t' then flushToken cur ++ tokensFrom [] cs
    else if c = ',' then flushToken cur ++ [','] :: tokensFrom [] cs
    else tokensFrom (c :: cur) cs

/-- One line of text (R67, R68): `some none` for a blank or comment line, `none` for an error. -/
def parseLine (text : List Char) : Option (Option AsmLine) :=
  match tokensFrom [] text with
  | [] => some none
  | [['n', 'o', 'p']] => some (some .nop)
  | [['i', 'n', 'i', 't'], seed] => (parseNumber seed).map fun v => some (.init v)
  | [['b', 'l', 'o', 'c', 'k']] => some (some .block)
  | [['t', 'a', 'i', 'l'], n] => (parseNumber n).map fun v => some (.tail v)
  | [['f', 'i', 'n', 'a', 'l'], len] => (parseNumber len).map fun v => some (.final v)
  | [['.', 'w', 'o', 'r', 'd'], w] => (parseWord w).map fun v => some (.word v)
  | [['h', 'a', 's', 'h'], len] => (parseNumber len).map fun v => some (.hashDefault v)
  | [['h', 'a', 's', 'h'], seed, [','], len] =>
    match parseNumber seed, parseNumber len with
    | some v, some n => some (some (.hash v n))
    | _, _ => none
  | _ => none

/-- The lines of a text; `cur` is the line being read, last character first. -/
def linesFrom (cur : List Char) : List Char → List (List Char)
  | [] => [cur.reverse]
  | c :: cs => if c = '\n' then cur.reverse :: linesFrom [] cs else linesFrom (c :: cur) cs

/-- The words of a line of text. -/
def assembleLine (text : List Char) : Option (List OpWord) :=
  match parseLine text with
  | some none => some []
  | some (some l) => assemble l
  | none => none

/-- The words of a list of lines, in order; one error is an error of the whole. -/
def assembleLines : List (List Char) → Option (List OpWord)
  | [] => some []
  | l :: ls =>
    match assembleLine l, assembleLines ls with
    | some ws, some rest => some (ws ++ rest)
    | _, _ => none

/-- The words of a program text, one operation per line (R67). -/
def assembleText (text : List Char) : Option (List OpWord) := assembleLines (linesFrom [] text)

end Sys2Proof.Machine
end

