-- ==== Sys2Proof/Machine/Reference.lean ====
section
/-! DEFINITION. The contract: the function the block computes, once as R146 writes it (by index) and once as
the fold over the byte list that R2 and R146 name; and the arithmetic of the rules read on exact integers. -/

namespace Sys2Proof.Machine

/-- The body of step 2 of R146, for a packed chunk `k`. -/
def chunkStep (h k : Word) : Word := mac32 (rotl32 (h ^^^ kmix k) .r2) 5 0xe6546b64

/-- Step 2 of R146: the hash after the first `n` chunks of the key, in rising order (R112). -/
def hashBlocks (key : Nat → Byte) (seed : Word) : Nat → Word
  | 0 => seed
  | n + 1 =>
    chunkStep (hashBlocks key seed n)
      (lepack4 (key (4 * n)) (key (4 * n + 1)) (key (4 * n + 2)) (key (4 * n + 3)))

/-- Step 3 of R146: the `len mod 4` trailing bytes, from index `t = 4 * (len div 4)` on. -/
def hashTail (key : Nat → Byte) (len : Nat) (h : Word) : Word :=
  if len % 4 = 1 then h ^^^ kmix (lepack1 (key (4 * (len / 4))))
  else if len % 4 = 2 then h ^^^ kmix (lepack2 (key (4 * (len / 4))) (key (4 * (len / 4) + 1)))
  else if len % 4 = 3 then
    h ^^^ kmix (lepack3 (key (4 * (len / 4))) (key (4 * (len / 4) + 1)) (key (4 * (len / 4) + 2)))
  else h

/-- Step 4 of R146. -/
def hashFinal (h len : Word) : Word :=
  let h := h ^^^ len
  let h := fold h .s16
  let h := mac32 h 0x85ebca6b 0
  let h := fold h .s13
  let h := mac32 h 0xc2b2ae35 0
  fold h .s16

/-- `murmur3_32(key, len, seed)` (R146). -/
def murmur3 (key : Nat → Byte) (len seed : Word) : Word :=
  hashFinal (hashTail key len.toNat (hashBlocks key seed (len.toNat / 4))) len

/-- The full chunks of a byte list, packed, in order. -/
def chunkWords : List Byte → List Word
  | b0 :: b1 :: b2 :: b3 :: rest => lepack4 b0 b1 b2 b3 :: chunkWords rest
  | _ => []

/-- The bytes after the last full chunk. -/
def trailingBytes : List Byte → List Byte
  | _ :: _ :: _ :: _ :: rest => trailingBytes rest
  | l => l

/-- Step 3 on the trailing bytes themselves. -/
def tailStep (h : Word) : List Byte → Word
  | [b0, b1, b2] => h ^^^ kmix (lepack3 b0 b1 b2)
  | [b0, b1] => h ^^^ kmix (lepack2 b0 b1)
  | [b0] => h ^^^ kmix (lepack1 b0)
  | _ => h

/-- `murmur3_32(bytes, seed)` (R2) as a fold over the byte list (R146), for keys of fewer than `2^32` bytes
(R6). -/
def murmur3Bytes (bytes : List Byte) (seed : Word) : Word :=
  hashFinal (tailStep ((chunkWords bytes).foldl chunkStep seed) (trailingBytes bytes))
    (BitVec.ofNat 32 bytes.length)

/-! ### The rules' arithmetic on exact integers (R83: `*` and `+` are exact, the reduction is written) -/

/-- Little-endian packing, unused high bytes zero: byte `i` weighs `2^(8 i)` (R80, R81). -/
def natPack : List Nat → Nat
  | [] => 0
  | b :: bs => b + 256 * natPack bs

/-- `(a * b + c) mod 2^32` (R83). -/
def natMac (a b c : Nat) : Nat := (a * b + c) % 2 ^ 32

/-- `((x << r) mod 2^32)` and the `r` bits that re-enter at the bottom (R84). -/
def natRotl (x r : Nat) : Nat := x * 2 ^ r % 2 ^ 32 + x / 2 ^ (32 - r)

/-- `x XOR (x div 2^s)` (R85, R86). -/
def natFold (x s : Nat) : Nat := x ^^^ (x / 2 ^ s)

/-- `k3` of the key word `k` (R87). -/
def natKmix (k : Nat) : Nat := natMac (natRotl (natMac k 0xcc9e2d51 0) 15) 0x1b873593 0

/-- The new `H` of `block` (R110). -/
def natBlock (h k : Nat) : Nat := natMac (natRotl (h ^^^ natKmix k) 13) 5 0xe6546b64

/-- `h5` of `final` (R130). -/
def natFinal (h len : Nat) : Nat :=
  natFold (natMac (natFold (natMac (natFold (h ^^^ len) 16) 0x85ebca6b 0) 13) 0xc2b2ae35 0) 16

end Sys2Proof.Machine
end

