-- ==== Sys2Proof/Safety.lean ====
section
/-! DEFINITION. The terms claims are stated in: runs, the premises of a launch (R191), the trace of key reads,
the invariants, and what it means that two states agree on control. -/

namespace Sys2Proof.Machine

/-- `n` steps, ending at the first fault or refusal. -/
def runSteps : Nat → State → Host.Outcome State Fault Refusal
  | 0, s => .next s
  | n + 1, s =>
    match step s with
    | .next t => runSteps n t
    | .fault r => .fault r
    | .refused r => .refused r

/-- Executes a list of operations, each completely before the next (R60). -/
def execAll : List Instr → State → Host.Outcome State Fault Refusal
  | [], s => .next s
  | i :: is, s =>
    match exec i s with
    | .next t => execAll is t
    | .fault r => .fault r
    | .refused r => .refused r

/-- The key addresses a list of operations reads, in order. -/
def readTrace : List Instr → State → List Nat
  | [], _ => []
  | i :: is, s =>
    keyReads i s ++
      match exec i s with
      | .next t => readTrace is t
      | .fault _ => []
      | .refused _ => []

/-- The key as the contract reads it (R40); beyond `KLEN` the value does not matter. -/
def State.keyFn (s : State) (i : Nat) : Byte := (Memory.bytes s.key).getD i 0

/-- The premises of a run `START(seed, len)` (R191) in a state whose next turn is that `START` and in which the
host does nothing else: `no_fault`, `idle`, `len_in_key`; `key_stable` and `reset_done` are the turn list and
the canonical key memory. -/
abbrev State.launch (s : State) (seed len : Word) : Prop :=
  s.ready = true ∧ s.turns = [.host (.start seed len)] ∧ len.toNat ≤ s.klen ∧ Memory.wf s.key = true

/-- The premises of a canonical stream in direct drive (R148, R188, R191). -/
abbrev State.directLaunch (s : State) (seed len : Word) : Prop :=
  s.err = false ∧ s.turns = (canonicalWords seed len).map .present ∧
    len.toNat ≤ s.klen ∧ Memory.wf s.key = true

/-- The invariant of every step, in direct drive too: the key memory is canonical, `ECAUSE` is a cause exactly
when `ERR = 1` (R25), and once a computation was started `P` is a multiple of 4 (R37). -/
abbrev State.inv (s : State) : Prop :=
  Memory.wf s.key = true ∧ (s.err = true ↔ s.ecause ≠ none) ∧
    (s.phase ≠ .idle → s.p.toNat % 4 = 0)

/-- A turn of the assembled block's surroundings: nobody but the sequencer drives the operation port (R60). -/
def Turn.assembled : Turn → Bool
  | .block => true
  | .host _ => true
  | .present _ => false

/-- The invariant of the assembled block (R165, R37, R147): no fault, and what each phase says of the
registers. -/
abbrev State.assembledInv (s : State) : Prop :=
  s.turns.all Turn.assembled = true ∧ s.err = false ∧ s.ecause = none ∧
    (s.valid = true ↔ s.phase = .done) ∧
    (s.phase = .absorb → s.p.toNat % 4 = 0 ∧ s.p.toNat ≤ s.lenr.toNat) ∧
    (s.phase = .final ∨ s.phase = .done → s.p.toNat = s.lenr.toNat - s.lenr.toNat % 4) ∧
    (s.phase = .done → s.h = s.result)

/-- The bytes at `P .. P+n-1` as numbers, as `MemRead` returns them (R44). -/
def State.keyNats (s : State) (n : Nat) : List Nat :=
  (List.range n).map fun i => (s.memRead (s.p.toNat + i)).toNat

/-- `init` operations aside, what a computation is made of (R37). -/
def isInit : Instr → Bool
  | .nop => false
  | .init _ => true
  | .block => false
  | .tail0 => false
  | .tail1 => false
  | .tail2 => false
  | .tail3 => false
  | .final _ => false

/-- What decides which operations are issued: everything but the hash, the result and the key's bytes (R149). -/
abbrev State.controlEq (s t : State) : Prop :=
  s.p = t.p ∧ s.valid = t.valid ∧ s.err = t.err ∧ s.ecause = t.ecause ∧ s.phase = t.phase ∧
    s.lenr = t.lenr ∧ s.turns = t.turns ∧ s.draws = t.draws

end Sys2Proof.Machine
end

