-- ==== Sys2Proof/Certificates/Slice0/Obligations.lean ====
section
/-! DEFINITION. The statements for the provers. Each docstring names the rules of spec/ it formalises. -/

open Sys2Proof Sys2Proof.Machine

/-! ### Encoding -/

/-- R69: the decoder, field by field (`op` and `arg` as numbers), and that encoding and decoding are inverse to
each other. -/
def Obligations.DecoderIsTotalAndInverseOfEncoder : Prop :=
  (∀ w : OpWord,
    (w.toNat / 2 ^ 32 = 0 → w.toNat % 2 ^ 32 = 0 → decode w = .legal .nop) ∧
    (w.toNat / 2 ^ 32 = 0 → w.toNat % 2 ^ 32 ≠ 0 → decode w = .illegal .reservedBits) ∧
    (w.toNat / 2 ^ 32 = 1 → decode w = .legal (.init (BitVec.ofNat 32 (w.toNat % 2 ^ 32)))) ∧
    (w.toNat / 2 ^ 32 = 2 → w.toNat % 2 ^ 32 = 0 → decode w = .legal .block) ∧
    (w.toNat / 2 ^ 32 = 2 → w.toNat % 2 ^ 32 ≠ 0 → decode w = .illegal .reservedBits) ∧
    (w.toNat / 2 ^ 32 = 3 → w.toNat % 2 ^ 32 = 0 → decode w = .legal .tail0) ∧
    (w.toNat / 2 ^ 32 = 3 → w.toNat % 2 ^ 32 = 1 → decode w = .legal .tail1) ∧
    (w.toNat / 2 ^ 32 = 3 → w.toNat % 2 ^ 32 = 2 → decode w = .legal .tail2) ∧
    (w.toNat / 2 ^ 32 = 3 → w.toNat % 2 ^ 32 = 3 → decode w = .legal .tail3) ∧
    (w.toNat / 2 ^ 32 = 3 → 4 ≤ w.toNat % 2 ^ 32 → decode w = .illegal .reservedBits) ∧
    (w.toNat / 2 ^ 32 = 4 → decode w = .legal (.final (BitVec.ofNat 32 (w.toNat % 2 ^ 32)))) ∧
    (5 ≤ w.toNat / 2 ^ 32 → decode w = .illegal .reservedOpcode)) ∧
  (∀ i : Instr, i.wellFormed = true → decode (encode i) = .legal i) ∧
  (∀ (w v : OpWord) (i : Instr), decode w = .legal i → decode v = .legal i → w = v)

/-- R62: a word selects the one row of the table that has its operation's mnemonic; an illegal word selects
none, with cause `01` exactly for opcodes 5, 6 and 7. -/
def Obligations.TableRowsSelectWhatDecodes : Prop :=
  ∀ w : OpWord,
    (∀ i, decode w = .legal i →
      (tableRows.filter fun r => r.selectedBy w).map TableRow.mnemonic = [mnemonicOf i]) ∧
    (∀ c, decode w = .illegal c →
      (tableRows.filter fun r => r.selectedBy w) = [] ∧
        (c = .reservedOpcode ↔ 5 ≤ w.toNat / 2 ^ 32))

/-- R64: which words are illegal, and what executing one does from `ERR = 0`: `ERR`, `ECAUSE`, nothing else. -/
def Obligations.IllegalWordsAreExactlyThese : Prop :=
  (∀ w : OpWord, decode w = .illegal .reservedOpcode ↔ 5 ≤ w.toNat / 2 ^ 32) ∧
  (∀ w : OpWord, decode w = .illegal .reservedBits ↔
    ((w.toNat / 2 ^ 32 = 0 ∨ w.toNat / 2 ^ 32 = 2) ∧ w.toNat % 2 ^ 32 ≠ 0) ∨
      (w.toNat / 2 ^ 32 = 3 ∧ 4 ≤ w.toNat % 2 ^ 32)) ∧
  (∀ (w : OpWord) (c : Cause) (s : State), decode w = .illegal c → s.err = false →
    presentWord w s = .next { s with err := true, ecause := some c })

/-- Sanity: words written out from the opcode map (R62) decode to their operations. -/
def Obligations.WrittenWordsDecode : Prop :=
  decode 0x000000000 = .legal .nop ∧ decode 0x19747B28C = .legal (.init 0x9747B28C) ∧
  decode 0x200000000 = .legal .block ∧ decode 0x300000000 = .legal .tail0 ∧
  decode 0x300000001 = .legal .tail1 ∧ decode 0x300000002 = .legal .tail2 ∧
  decode 0x300000003 = .legal .tail3 ∧ decode 0x40000000D = .legal (.final 13)

/-! ### Functional units -/

/-- R80: the byte at the lowest address stands in bits 7:0, and so on up. -/
def Obligations.LepackIsLittleEndian : Prop :=
  ∀ b0 b1 b2 b3 : Byte,
    lepack4 b0 b1 b2 b3 = b3 ++ b2 ++ b1 ++ b0 ∧
    (lepack4 b0 b1 b2 b3).extractLsb' 0 8 = b0 ∧ (lepack4 b0 b1 b2 b3).extractLsb' 8 8 = b1 ∧
    (lepack4 b0 b1 b2 b3).extractLsb' 16 8 = b2 ∧ (lepack4 b0 b1 b2 b3).extractLsb' 24 8 = b3

/-- R81: the partial forms fill with zeros and equal the full form on the same bytes and zero bytes. -/
def Obligations.LepackPartialFormsZeroFill : Prop :=
  ∀ b0 b1 b2 : Byte,
    lepack1 b0 = 0#24 ++ b0 ∧ lepack2 b0 b1 = 0#16 ++ b1 ++ b0 ∧ lepack3 b0 b1 b2 = 0#8 ++ b2 ++ b1 ++ b0 ∧
    lepack1 b0 = lepack4 b0 0 0 0 ∧ lepack2 b0 b1 = lepack4 b0 b1 0 0 ∧
    lepack3 b0 b1 b2 = lepack4 b0 b1 b2 0

/-- R83: multiply-accumulate on exact integers, reduced once. -/
def Obligations.MacWrapsModulo32 : Prop :=
  ∀ a b c : Word, (mac32 a b c).toNat = (a.toNat * b.toNat + c.toNat) % 2 ^ 32

/-- R84: bit `i` of the rotation is bit `(i - r) mod 32` of the operand; the shift pair read on integers; the
number of 1 bits is unchanged, and rotating on by `32 - r` gives the operand back. -/
def Obligations.RotationMovesEachBit : Prop :=
  (∀ (x : Word) (r : RotAmount) (i : Nat), i < 32 →
    (rotl32 x r).getLsbD i = x.getLsbD ((i + 32 - rotBits r) % 32)) ∧
  (∀ (x : Word) (r : RotAmount), (rotl32 x r).toNat = natRotl x.toNat (rotBits r)) ∧
  (∀ (x : Word) (r : RotAmount), ((List.range 32).countP fun i => (rotl32 x r).getLsbD i) =
    (List.range 32).countP fun i => x.getLsbD i) ∧
  (∀ (x : Word) (r : RotAmount), (rotl32 x r).rotateLeft (32 - rotBits r) = x) ∧
  rotBits .r1 = 15 ∧ rotBits .r2 = 13

/-- R85: the logical right shift. -/
def Obligations.ShiftRightIsDivision : Prop :=
  (∀ (x : Word) (s : ShrAmount), (shr32 x s).toNat = x.toNat / 2 ^ shrBits s) ∧
  shrBits .s16 = 16 ∧ shrBits .s13 = 13

/-- R86: the fold keeps the top `s` bits, XORs each lower bit with the bit `s` above it, and is a bijection. -/
def Obligations.FoldIsABijection : Prop :=
  (∀ (x : Word) (s : ShrAmount) (i : Nat), i + shrBits s < 32 →
    (fold x s).getLsbD i = (x.getLsbD i ^^ x.getLsbD (i + shrBits s))) ∧
  (∀ (x : Word) (s : ShrAmount) (i : Nat), 32 ≤ i + shrBits s → i < 32 →
    (fold x s).getLsbD i = x.getLsbD i) ∧
  (∀ s : ShrAmount, Function.Bijective fun x : Word => fold x s)

/-- R87: the key-word mix on exact integers, and that it maps 0 to 0. -/
def Obligations.KeyMixOnIntegers : Prop :=
  (∀ k : Word, (kmix k).toNat =
    natMac (natRotl (natMac k.toNat 0xcc9e2d51 0) 15) 0x1b873593 0) ∧ kmix 0 = 0

/-! ### Each operation: its result, on every state with `ERR = 0` -/

/-- R101, R121: `nop` and `tail 0`, the words `0x000000000` and `0x300000000`, complete and change nothing. -/
def Obligations.NopAndTailZeroChangeNothing : Prop :=
  encode .nop = 0x000000000 ∧ encode .tail0 = 0x300000000 ∧
    ∀ s : State, exec .nop s = .next s ∧ exec .tail0 s = .next s

/-- R100: `init seed`, the word `0x100000000 + seed`. -/
def Obligations.InitStartsAComputation : Prop :=
  ∀ (seed : Word) (s : State), s.err = false → (encode (.init seed)).toNat = 0x100000000 + seed.toNat ∧
    exec (.init seed) s = .next { s with h := seed, p := 0, valid := false }

/-- R110, R111: `block`, the word `0x200000000`, mixes the four bytes at `P .. P+3` into `H` and adds 4 to `P`
modulo `2^32`. The bytes are `MemRead`'s; outside the key they are free. -/
def Obligations.BlockFoldsOneChunk : Prop :=
  ∀ s : State, s.err = false → encode .block = 0x200000000 ∧ ∃ t : State, exec .block s = .next t ∧
    t.h.toNat = natBlock s.h.toNat (natPack (s.keyNats 4)) ∧
    t.p.toNat = (s.p.toNat + 4) % 2 ^ 32 ∧
    t.result = s.result ∧ t.valid = s.valid ∧ t.err = s.err ∧ t.ecause = s.ecause ∧
    t.phase = s.phase ∧ t.lenr = s.lenr ∧ t.key = s.key ∧ t.turns = s.turns

/-- R122, R123, R124: `tail n` for `n` in 1..3, the word `0x300000000 + n`, XORs the mixed partial word into
`H` and writes nothing else. -/
def Obligations.TailXorsThePartialWord : Prop :=
  ∀ (s : State) (n : Nat) (i : Instr),
    ((n = 1 ∧ i = .tail1) ∨ (n = 2 ∧ i = .tail2) ∨ (n = 3 ∧ i = .tail3)) → s.err = false →
    (encode i).toNat = 0x300000000 + n ∧ ∃ t : State, exec i s = .next t ∧
      t.h.toNat = s.h.toNat ^^^ natKmix (natPack (s.keyNats n)) ∧
      t.p = s.p ∧ t.result = s.result ∧ t.valid = s.valid ∧ t.err = s.err ∧ t.ecause = s.ecause ∧
      t.phase = s.phase ∧ t.lenr = s.lenr ∧ t.key = s.key ∧ t.turns = s.turns

/-- R130: `final len`, the word `0x400000000 + len`, puts the avalanche mix of `H XOR len` into `H` and `RESULT`
and sets `VALID`. -/
def Obligations.FinalDeliversTheHash : Prop :=
  ∀ (len : Word) (s : State), s.err = false →
    (encode (.final len)).toNat = 0x400000000 + len.toNat ∧ ∃ v : Word, v.toNat = natFinal s.h.toNat len.toNat ∧
    exec (.final len) s = .next { s with h := v, result := v, valid := true }

/-- R163: while `ERR = 1` every word is ignored, `ready` and `valid` read 0 and `result` shows `RESULT`; no step
but a reset clears the fault, and no step ends a run. -/
def Obligations.FaultedDatapathIgnoresWords : Prop :=
  ∀ s : State, s.err = true →
    (∀ w : OpWord, presentWord w s = .next s) ∧ (∀ i : Instr, exec i s = .next s) ∧
      s.ready = false ∧ s.validOut = false ∧ s.outputs.result = s.result ∧
      ∀ t : State, step s = .next t → (∀ rest, s.turns ≠ .host .reset :: rest) →
        t.err = true ∧ t.ecause = s.ecause ∧ (s.phase ≠ .done → t.phase ≠ .done)

/-- R161: an illegal word sets `ERR` and the code of its cause and changes nothing else. -/
def Obligations.IllegalOpSetsTheCause : Prop :=
  ∀ (w : OpWord) (c : Cause) (s : State), decode w = .illegal c → s.err = false →
    ∃ t : State, presentWord w s = .next t ∧ t = { s with err := true, ecause := t.ecause } ∧
      (5 ≤ w.toNat / 2 ^ 32 → ecauseCode t.ecause = 0b01) ∧
      (w.toNat / 2 ^ 32 < 5 → ecauseCode t.ecause = 0b10)

/-! ### Frames -/

/-- R35, R46: what each operation leaves unchanged, in every state. -/
def Obligations.OperationsWriteOnlyTheirColumn : Prop :=
  ∀ (i : Instr) (s t : State), exec i s = .next t →
    (∀ a : Nat, Memory.lookup t.key a = Memory.lookup s.key a) ∧
    t.err = s.err ∧ t.ecause = s.ecause ∧ t.phase = s.phase ∧ t.lenr = s.lenr ∧ t.turns = s.turns ∧
    ((∀ len, i ≠ .final len) → t.result = s.result) ∧
    ((∀ seed, i ≠ .init seed) → (∀ len, i ≠ .final len) → t.valid = s.valid) ∧
    ((∀ seed, i ≠ .init seed) → i ≠ .block → t.p = s.p) ∧
    ((i = .nop ∨ i = .tail0) → t.h = s.h)

/-- R44: an operation reads exactly its bytes: the outcome is the same on every key memory that agrees with
the present one at the addresses it reads. An illegal word reads none. -/
def Obligations.OperationsReadOnlyTheirBytes : Prop :=
  (∀ (i : Instr) (s t : State) (m : List Host.Cell),
    (∀ a ∈ keyReads i s, Memory.lookup m a = Memory.lookup s.key a) → exec i s = .next t →
      exec i (s.setKey m) = .next (t.setKey m)) ∧
  (∀ s : State, s.err = false →
    keyReads .block s = [s.p.toNat, s.p.toNat + 1, s.p.toNat + 2, s.p.toNat + 3] ∧
    keyReads .tail1 s = [s.p.toNat] ∧ keyReads .tail2 s = [s.p.toNat, s.p.toNat + 1] ∧
    keyReads .tail3 s = [s.p.toNat, s.p.toNat + 1, s.p.toNat + 2] ∧
    keyReads .tail0 s = [] ∧ keyReads .nop s = [] ∧ (∀ v, keyReads (.init v) s = []) ∧
    (∀ v, keyReads (.final v) s = [])) ∧
  (∀ (w : OpWord) (c : Cause) (s : State) (m : List Host.Cell), decode w = .illegal c →
    ∃ t : State, presentWord w s = .next t ∧ presentWord w (s.setKey m) = .next (t.setKey m))

/-! ### The step, reset and the host -/

/-- R60: a step at a presented word runs the operation it decodes to, on the state without that turn; a word
that does not decode raises `IllegalOp`; and the word that `withFetchWord` places is the one run. -/
def Obligations.StepRunsThePresentedOperation : Prop :=
  (∀ (s : State) (w : OpWord) (rest : List Turn) (i : Instr), s.turns = .present w :: rest →
    decode w = .legal i → i.wellFormed = true → step s = exec i (s.setTurns rest)) ∧
  (∀ (s : State) (w : OpWord) (rest : List Turn) (c : Cause), s.turns = .present w :: rest →
    decode w = .illegal c → step s = .next (raiseIllegalOp c (s.setTurns rest))) ∧
  (∀ (s : State) (nbits w : Nat) (i : Instr), decodeTableWord nbits w = some i →
    step (s.withFetchWord nbits w) = exec i s)

/-- R180: `reset` from any state, at the next step: the control values, nothing of the key memory touched, and
what the outputs then read. (`H`, `P`, `RESULT` and `LENR` are left open.) -/
def Obligations.ResetFromAnyState : Prop :=
  ∀ (s : State) (rest : List Turn), s.turns = .host .reset :: rest → ∃ t : State, step s = .next t ∧
    t.valid = false ∧ t.err = false ∧ ecauseCode t.ecause = 0b00 ∧ phaseCode t.phase = 0b00 ∧
    t.key = s.key ∧ t.turns = rest ∧ t.ready = true ∧ t.validOut = false ∧ t.status = 0x00

/-- R36: the values the spec gives for reset hold in the state right after reset. -/
def Obligations.ResetStateHasTheSpecsValues : Prop :=
  State.reset.valid = false ∧ State.reset.err = false ∧ ecauseCode State.reset.ecause = 0b00 ∧
    State.reset.phase = .idle ∧ State.reset.ready = true ∧ State.reset.status = 0x00

/-- R141: an accepted `START` latches the length, initialises the datapath and enters `ABSORB`; a `start`
presented while `ready = 0` changes nothing. -/
def Obligations.StartIsAcceptedOnlyWhenReady : Prop :=
  ∀ (s : State) (seed len : Word) (rest : List Turn), s.turns = .host (.start seed len) :: rest →
    (s.ready = true →
      step s = .next { s with h := seed, p := 0, valid := false, lenr := len, phase := .absorb, turns := rest }) ∧
    (s.ready = false → step s = .next { s with turns := rest })

/-- R142: the block step. -/
def Obligations.SequencerBlockStep : Prop :=
  ∀ s : State, s.turns = [] → s.err = false → s.phase = .absorb →
    s.p.toNat / 4 ≠ s.lenr.toNat / 4 →
    ∃ t : State, exec .block s = .next t ∧ step s = .next t ∧ t.phase = .absorb ∧
      t.p.toNat = (s.p.toNat + 4) % 2 ^ 32

/-- R143: the tail step, issued also when `LENR[1:0] = 0`. -/
def Obligations.SequencerTailStep : Prop :=
  ∀ s : State, s.turns = [] → s.err = false → s.phase = .absorb →
    s.p.toNat / 4 = s.lenr.toNat / 4 →
    ∃ (i : Instr) (t : State), exec i s = .next t ∧ step s = .next { t with phase := .final } ∧
      (s.lenr.toNat % 4 = 0 → i = .tail0) ∧ (s.lenr.toNat % 4 = 1 → i = .tail1) ∧
      (s.lenr.toNat % 4 = 2 → i = .tail2) ∧ (s.lenr.toNat % 4 = 3 → i = .tail3)

/-- R144: the final step. -/
def Obligations.SequencerFinalStep : Prop :=
  ∀ s : State, s.turns = [] → s.err = false → s.phase = .final →
    ∃ t : State, exec (.final s.lenr) s = .next t ∧ step s = .next { t with phase := .done } ∧
      t.valid = true ∧ t.result = t.h

/-- R147, first sentence: with `ERR = 0` the block waits, or exactly one of R142, R143, R144 is enabled; while
it waits and nobody moves, nothing changes. -/
def Obligations.ExactlyOneRuleIsEnabled : Prop :=
  (∀ s : State,
    ((if s.waiting then 1 else 0) + (if s.blockEnabled then 1 else 0) + (if s.tailEnabled then 1 else 0) +
      (if s.finalEnabled then 1 else 0) : Nat) = 1) ∧
  (∀ s : State, s.waiting = true → s.turns = [] → step s = .next s)

/-- R40, R41: a key the host has placed reads back byte by byte, and `KLEN` is its length. Log 4 (the model's
choice): a placing while `BUSY = 1` is refused, and one too long for the map faults. -/
def Obligations.PlacedKeyReadsBack : Prop :=
  ∀ (s : State) (bytes : List Byte) (rest : List Turn), s.turns = .host (.fillKey bytes) :: rest →
    (s.busy = false → bytes.length < 2 ^ 32 → ∃ t : State, step s = .next t ∧
      t.klen = bytes.length ∧ (∀ i, (hi : i < bytes.length) → t.memRead i = bytes[i]) ∧
      t = { s with key := t.key, turns := rest }) ∧
    (s.busy = true → step s = .refused .keyWriteWhileBusy) ∧
    (s.busy = false → 2 ^ 32 ≤ bytes.length → step s = .fault .keyTooLong)

/-- R30, R31: the derived signals and the places of the bits of `STATUS`. -/
def Obligations.StatusVectorBits : Prop :=
  ∀ s : State,
    (s.busy = true ↔ s.phase = .absorb ∨ s.phase = .final) ∧
    (s.ready = true ↔ s.busy = false ∧ s.err = false) ∧
    (s.validOut = true ↔ s.valid = true ∧ s.err = false) ∧
    s.status.getLsbD 0 = s.valid ∧ s.status.getLsbD 1 = s.busy ∧ s.status.getLsbD 2 = s.err ∧
    s.status.extractLsb' 3 2 = ecauseCode s.ecause ∧ s.status.extractLsb' 5 2 = phaseCode s.phase ∧
    s.status.getLsbD 7 = false ∧
    s.outputs = ⟨s.ready, s.validOut, s.result, s.err, s.status⟩

/-! ### Invariants and whole-machine rules -/

/-- R37, R25, R40: the key memory stays canonical, `ECAUSE` is a cause exactly when `ERR = 1`, and `P` stays a
multiple of 4 from a `START` until reset, through every step, words presented in between included. -/
def Obligations.EveryStepKeepsInv : Prop :=
  ∀ s t : State, s.inv → step s = .next t → t.inv

/-- The invariant holds right after reset. -/
def Obligations.InvAtReset : Prop := State.reset.inv

/-- R165, R37, R147: in the assembled block `ERR` stays 0 and each phase says what the registers hold. -/
def Obligations.EveryStepKeepsAssembledInv : Prop :=
  ∀ s t : State, s.assembledInv → step s = .next t → t.assembledInv

/-- The assembled block's invariant holds right after reset. -/
def Obligations.AssembledInvAtReset : Prop := State.reset.assembledInv

/-- R24: `ERR` is set by an illegal word and by nothing else, and cleared by reset and by nothing else; while it
is 1 a step that is not a reset leaves the datapath's registers as they were; it is 0 after reset, and no word of a canonical
stream is illegal. -/
def Obligations.ErrIsSetAndClearedOnlySo : Prop :=
  (∀ s t : State, step s = .next t →
    (s.err = false → (t.err = true ↔ ∃ (w : OpWord) (c : Cause) (rest : List Turn),
      s.turns = .present w :: rest ∧ decode w = .illegal c ∧ t.ecause = some c)) ∧
    (s.err = true → (t.err = false ↔ ∃ rest, s.turns = .host .reset :: rest)) ∧
    (s.err = true → (∀ rest, s.turns ≠ .host .reset :: rest) →
      t.h = s.h ∧ t.p = s.p ∧ t.result = s.result ∧ t.valid = s.valid ∧ t.ecause = s.ecause)) ∧
  State.reset.err = false ∧
  (∀ (seed len : Word), ∀ w ∈ canonicalWords seed len, ∀ c, decode w ≠ .illegal c)

/-- R22, R23: apart from a reset, `RESULT` changes only by a `final`, which sets `VALID` with it, and `VALID`
changes only by a `final` or an `init`; each is presented by a harness or issued by the sequencer (`init` on an
accepted `START`). -/
def Obligations.ResultAndValidChangeOnlySo : Prop :=
  ∀ s t : State, step s = .next t → (∀ rest, s.turns ≠ .host .reset :: rest) →
    (t.result ≠ s.result ∨ (t.valid = true ∧ s.valid = false) →
      t.valid = true ∧ t.h = t.result ∧ ∃ len : Word, t.result = finalMix s.h len ∧
        ((∃ w rest, s.turns = .present w :: rest ∧ decode w = .legal (.final len)) ∨
          (s.phase = .final ∧ s.lenr = len))) ∧
    (t.valid = false ∧ s.valid = true →
      t.result = s.result ∧ t.p = 0 ∧
        ((∃ w rest, s.turns = .present w :: rest ∧ decode w = .legal (.init t.h)) ∨
          (s.ready = true ∧ ∃ len rest, s.turns = .host (.start t.h len) :: rest)))

/-- R28, R29: the moves of `PHASE`, and that `LENR` changes only by reset or an accepted `START`. -/
def Obligations.PhaseAndLengthChangeOnlySo : Prop :=
  ∀ s t : State, step s = .next t → (∀ rest, s.turns ≠ .host .reset :: rest) →
    (t.phase ≠ s.phase →
      ((s.phase = .idle ∨ s.phase = .done) ∧ t.phase = .absorb ∧ s.err = false ∧
        ∃ seed rest, s.turns = .host (.start seed t.lenr) :: rest) ∨
      (s.phase = .absorb ∧ t.phase = .final) ∨ (s.phase = .final ∧ t.phase = .done ∧ t.valid = true)) ∧
    (t.lenr ≠ s.lenr → s.ready = true ∧ ∃ seed rest, s.turns = .host (.start seed t.lenr) :: rest)

/-- R46, R52: the block never writes the key memory: a step changes it only by the host's placing of a key, and
that only while `BUSY = 0`. That the placing is one move, refused while `BUSY = 1`, is the model's choice
(log 4). -/
def Obligations.OnlyTheHostWritesTheKey : Prop :=
  ∀ s t : State, step s = .next t → t.key ≠ s.key →
    s.busy = false ∧ ∃ bytes rest, s.turns = .host (.fillKey bytes) :: rest

/-- R160 and log 4: no operation, no block step and no host move but the placing of a key ever stops the
machine. -/
def Obligations.OnlyKeyPlacingStops : Prop :=
  ∀ s : State, (∃ t, step s = .next t) ∨
    ∃ bytes rest, s.turns = .host (.fillKey bytes) :: rest ∧ (s.busy = true ∨ 2 ^ 32 ≤ bytes.length)

/-- R149: what is issued depends on the length alone: two states that agree but for the hash, the result and
the key's bytes step to states that agree so again. -/
def Obligations.DataNeverInfluenceControl : Prop :=
  ∀ s t s' : State, s.controlEq t → step s = .next s' → ∃ t', step t = .next t' ∧ s'.controlEq t'

/-- R37: after an `init`, `P` is four times the number of `block` operations since, modulo `2^32`. -/
def Obligations.CounterIsFourTimesBlocks : Prop :=
  ∀ (seed : Word) (is : List Instr) (s t : State), s.err = false → is.all (fun i => !isInit i) = true →
    execAll (.init seed :: is) s = .next t →
      t.p.toNat = 4 * is.count .block % 2 ^ 32 ∧ t.p.toNat % 4 = 0

/-- R183: between the end of a run and the next accepted `START`, reset or presented word, `result` and
`valid` stay. -/
def Obligations.ResultStaysUntilTheNextStart : Prop :=
  ∀ s t : State, s.phase = .done → s.turns.all Turn.assembled = true → step s = .next t →
    (∀ rest, s.turns ≠ .host .reset :: rest) →
    (s.ready = true → ∀ seed len rest, s.turns ≠ .host (.start seed len) :: rest) →
      t.phase = .done ∧ t.result = s.result ∧ t.validOut = s.validOut

/-! ### The run and the function computed -/

/-- R146, R147: a run of `START(seed, len)` ends after `(len div 4) + 3` steps in `DONE`, with
`murmur3_32(key[0..len-1], seed)` in `RESULT` and `H`, whatever the registers held before. -/
def Obligations.RunComputesMurmur : Prop :=
  ∀ (s : State) (seed len : Word), s.launch seed len →
    ∃ t : State, runSteps (len.toNat / 4 + 3) s = .next t ∧
      t.phase = .done ∧ t.valid = true ∧ t.err = false ∧ t.result = murmur3 s.keyFn len seed ∧
      t.h = t.result ∧ t.p.toNat = len.toNat - len.toNat % 4 ∧ t.lenr = len ∧ t.key = s.key ∧
      step t = .next t

/-- R147: the run is busy at every step before its last, and no earlier step ends it. -/
def Obligations.RunIsBusyUntilItsLastStep : Prop :=
  ∀ (s : State) (seed len : Word) (n : Nat), s.launch seed len → 1 ≤ n → n < len.toNat / 4 + 3 →
    ∃ t : State, runSteps n s = .next t ∧ t.busy = true ∧ t.valid = false ∧ t.err = false

/-- R148: the words of the canonical stream, presented directly from any state with `ERR = 0`, leave the values
of R147 in `RESULT`, `H`, `P` and `VALID`. -/
def Obligations.DirectDriveComputesTheSame : Prop :=
  ∀ (s : State) (seed len : Word), s.directLaunch seed len →
    ∃ t : State, runSteps (len.toNat / 4 + 3) s = .next t ∧
      t.result = murmur3 s.keyFn len seed ∧ t.h = t.result ∧
      t.p.toNat = len.toNat - len.toNat % 4 ∧ t.valid = true ∧ t.err = false ∧
      t.phase = s.phase ∧ t.lenr = s.lenr

/-- R55: the canonical stream reads each address in `0 .. len-1` exactly once, in rising order, and no other. -/
def Obligations.CanonicalStreamReadsEachByteOnce : Prop :=
  ∀ (s : State) (seed len : Word), s.err = false →
    readTrace (canonicalStream seed len) s = List.range len.toNat

/-- R146: the indexed form of the contract is the fold over the byte list. -/
def Obligations.IndexedAndFoldedMurmurAgree : Prop :=
  ∀ (bytes : List Byte) (seed : Word), bytes.length < 2 ^ 32 →
    murmur3Bytes bytes seed = murmur3 (fun i => bytes.getD i 0) (BitVec.ofNat 32 bytes.length) seed

/-- R113: for a fixed chunk, `block` is a bijection on `H`. -/
def Obligations.BlockIsABijectionOnTheHash : Prop :=
  ∀ k : Word, Function.Bijective fun h : Word => blockMix h k

/-- R132: for a fixed length, `final` is a bijection from the old `H` to `RESULT`. -/
def Obligations.FinalIsABijectionOnTheHash : Prop :=
  ∀ len : Word, Function.Bijective fun h : Word => finalMix h len

/-- R151: for every key and length, different seeds give different hashes. -/
def Obligations.EverySeedChangesTheHash : Prop :=
  ∀ (key : Nat → Byte) (len s1 s2 : Word), s1 ≠ s2 → murmur3 key len s1 ≠ murmur3 key len s2

/-- R151, R191: two runs with the same key, seed and length end with the same `RESULT`, whatever the registers
held at their launch. -/
def Obligations.RunsAreDeterministic : Prop :=
  ∀ (s t s' t' : State) (seed len : Word), s.launch seed len → t.launch seed len → s.key = t.key →
    runSteps (len.toNat / 4 + 3) s = .next s' → runSteps (len.toNat / 4 + 3) t = .next t' →
      s'.result = t'.result ∧ s'.h = t'.h ∧ s'.p = t'.p ∧ s'.validOut = true ∧ t'.validOut = true

/-- R133: the empty input runs no block and no mixing tail, and finalizes the seed. -/
def Obligations.EmptyInputFinalizesTheSeed : Prop :=
  (∀ seed : Word, canonicalStream seed 0 = [.init seed, .tail0, .final 0]) ∧
  (∀ (key : Nat → Byte) (seed : Word), (murmur3 key 0 seed).toNat = natFinal seed.toNat 0) ∧
  (∀ key : Nat → Byte, murmur3 key 0 0 = 0x00000000 ∧ murmur3 key 0 1 = 0x514E28B7 ∧
    murmur3 key 0 0xFFFFFFFF = 0x81F16F39)

/-- R125: `tail 1..3` compute what a block on the zero-filled chunk computes up to `x = H XOR k3`, and the
truncated computation on four zero bytes leaves `H`. -/
def Obligations.TailIsAZeroFilledTruncatedBlock : Prop :=
  ∀ s : State, s.err = false →
    (∃ t, exec .tail1 s = .next t ∧ t.h = s.h ^^^ kmix (lepack4 (s.keyByte 0) 0 0 0)) ∧
    (∃ t, exec .tail2 s = .next t ∧ t.h = s.h ^^^ kmix (lepack4 (s.keyByte 0) (s.keyByte 1) 0 0)) ∧
    (∃ t, exec .tail3 s = .next t ∧
      t.h = s.h ^^^ kmix (lepack4 (s.keyByte 0) (s.keyByte 1) (s.keyByte 2) 0)) ∧
    (∃ t, exec .tail0 s = .next t ∧ t.h = s.h ^^^ kmix (lepack4 0 0 0 0))

/-- R67, R68: the words of each line in range, `.word` included, and the expansion of `hash`. An operand of
`tail` out of range is an error by R67; that one of `init` or `final`, or a `.word` above 35 bits, is an error
too is DEDUCED (log 15). -/
def Obligations.AssemblerWords : Prop :=
  assemble .nop = some [0x000000000] ∧ assemble .block = some [0x200000000] ∧
  (∀ seed < 2 ^ 32, assemble (.init seed) = some [BitVec.ofNat 35 (0x100000000 + seed)]) ∧
  (∀ n < 4, assemble (.tail n) = some [BitVec.ofNat 35 (0x300000000 + n)]) ∧
  (∀ len < 2 ^ 32, assemble (.final len) = some [BitVec.ofNat 35 (0x400000000 + len)]) ∧
  (∀ seed < 2 ^ 32, ∀ len < 2 ^ 32, assemble (.hash seed len) =
    some (BitVec.ofNat 35 (0x100000000 + seed) :: (List.replicate (len / 4) 0x200000000 ++
      [BitVec.ofNat 35 (0x300000000 + len % 4), BitVec.ofNat 35 (0x400000000 + len)]))) ∧
  (∀ len, assemble (.hashDefault len) = assemble (.hash 0 len)) ∧
  (∀ w < 2 ^ 35, assemble (.word w) = some [BitVec.ofNat 35 w]) ∧ (∀ w ≥ 2 ^ 35, assemble (.word w) = none) ∧
  (∀ n ≥ 4, assemble (.tail n) = none) ∧ (∀ v ≥ 2 ^ 32, assemble (.init v) = none ∧ assemble (.final v) = none)
end

