-- ==== Sys2Proof/Laws/State.lean ====
section
/-! SUPPORT. One lemma for each field of State under each named update, true by definition.
The proofs are `(rfl)`, not `rfl`, so that simp rewrites with the lemma and leaves no definitional check behind:
the kernel would compare whole states field by field and unfold the hash arithmetic. -/

namespace Sys2Proof.Machine

variable (s : State)

/-! ### setH -/

@[simp] theorem State.setH_h (v : Word) : (s.setH v).h = v := (rfl)
@[simp] theorem State.setH_p (v : Word) : (s.setH v).p = s.p := (rfl)
@[simp] theorem State.setH_result (v : Word) : (s.setH v).result = s.result := (rfl)
@[simp] theorem State.setH_valid (v : Word) : (s.setH v).valid = s.valid := (rfl)
@[simp] theorem State.setH_err (v : Word) : (s.setH v).err = s.err := (rfl)
@[simp] theorem State.setH_ecause (v : Word) : (s.setH v).ecause = s.ecause := (rfl)
@[simp] theorem State.setH_phase (v : Word) : (s.setH v).phase = s.phase := (rfl)
@[simp] theorem State.setH_lenr (v : Word) : (s.setH v).lenr = s.lenr := (rfl)
@[simp] theorem State.setH_key (v : Word) : (s.setH v).key = s.key := (rfl)
@[simp] theorem State.setH_turns (v : Word) : (s.setH v).turns = s.turns := (rfl)
@[simp] theorem State.setH_draws (v : Word) : (s.setH v).draws = s.draws := (rfl)

/-! ### setP -/

@[simp] theorem State.setP_h (v : Word) : (s.setP v).h = s.h := (rfl)
@[simp] theorem State.setP_p (v : Word) : (s.setP v).p = v := (rfl)
@[simp] theorem State.setP_result (v : Word) : (s.setP v).result = s.result := (rfl)
@[simp] theorem State.setP_valid (v : Word) : (s.setP v).valid = s.valid := (rfl)
@[simp] theorem State.setP_err (v : Word) : (s.setP v).err = s.err := (rfl)
@[simp] theorem State.setP_ecause (v : Word) : (s.setP v).ecause = s.ecause := (rfl)
@[simp] theorem State.setP_phase (v : Word) : (s.setP v).phase = s.phase := (rfl)
@[simp] theorem State.setP_lenr (v : Word) : (s.setP v).lenr = s.lenr := (rfl)
@[simp] theorem State.setP_key (v : Word) : (s.setP v).key = s.key := (rfl)
@[simp] theorem State.setP_turns (v : Word) : (s.setP v).turns = s.turns := (rfl)
@[simp] theorem State.setP_draws (v : Word) : (s.setP v).draws = s.draws := (rfl)

/-! ### setResult -/

@[simp] theorem State.setResult_h (v : Word) : (s.setResult v).h = s.h := (rfl)
@[simp] theorem State.setResult_p (v : Word) : (s.setResult v).p = s.p := (rfl)
@[simp] theorem State.setResult_result (v : Word) : (s.setResult v).result = v := (rfl)
@[simp] theorem State.setResult_valid (v : Word) : (s.setResult v).valid = s.valid := (rfl)
@[simp] theorem State.setResult_err (v : Word) : (s.setResult v).err = s.err := (rfl)
@[simp] theorem State.setResult_ecause (v : Word) : (s.setResult v).ecause = s.ecause := (rfl)
@[simp] theorem State.setResult_phase (v : Word) : (s.setResult v).phase = s.phase := (rfl)
@[simp] theorem State.setResult_lenr (v : Word) : (s.setResult v).lenr = s.lenr := (rfl)
@[simp] theorem State.setResult_key (v : Word) : (s.setResult v).key = s.key := (rfl)
@[simp] theorem State.setResult_turns (v : Word) : (s.setResult v).turns = s.turns := (rfl)
@[simp] theorem State.setResult_draws (v : Word) : (s.setResult v).draws = s.draws := (rfl)

/-! ### setValid -/

@[simp] theorem State.setValid_h (v : Bool) : (s.setValid v).h = s.h := (rfl)
@[simp] theorem State.setValid_p (v : Bool) : (s.setValid v).p = s.p := (rfl)
@[simp] theorem State.setValid_result (v : Bool) : (s.setValid v).result = s.result := (rfl)
@[simp] theorem State.setValid_valid (v : Bool) : (s.setValid v).valid = v := (rfl)
@[simp] theorem State.setValid_err (v : Bool) : (s.setValid v).err = s.err := (rfl)
@[simp] theorem State.setValid_ecause (v : Bool) : (s.setValid v).ecause = s.ecause := (rfl)
@[simp] theorem State.setValid_phase (v : Bool) : (s.setValid v).phase = s.phase := (rfl)
@[simp] theorem State.setValid_lenr (v : Bool) : (s.setValid v).lenr = s.lenr := (rfl)
@[simp] theorem State.setValid_key (v : Bool) : (s.setValid v).key = s.key := (rfl)
@[simp] theorem State.setValid_turns (v : Bool) : (s.setValid v).turns = s.turns := (rfl)
@[simp] theorem State.setValid_draws (v : Bool) : (s.setValid v).draws = s.draws := (rfl)

/-! ### setPhase -/

@[simp] theorem State.setPhase_h (v : Phase) : (s.setPhase v).h = s.h := (rfl)
@[simp] theorem State.setPhase_p (v : Phase) : (s.setPhase v).p = s.p := (rfl)
@[simp] theorem State.setPhase_result (v : Phase) : (s.setPhase v).result = s.result := (rfl)
@[simp] theorem State.setPhase_valid (v : Phase) : (s.setPhase v).valid = s.valid := (rfl)
@[simp] theorem State.setPhase_err (v : Phase) : (s.setPhase v).err = s.err := (rfl)
@[simp] theorem State.setPhase_ecause (v : Phase) : (s.setPhase v).ecause = s.ecause := (rfl)
@[simp] theorem State.setPhase_phase (v : Phase) : (s.setPhase v).phase = v := (rfl)
@[simp] theorem State.setPhase_lenr (v : Phase) : (s.setPhase v).lenr = s.lenr := (rfl)
@[simp] theorem State.setPhase_key (v : Phase) : (s.setPhase v).key = s.key := (rfl)
@[simp] theorem State.setPhase_turns (v : Phase) : (s.setPhase v).turns = s.turns := (rfl)
@[simp] theorem State.setPhase_draws (v : Phase) : (s.setPhase v).draws = s.draws := (rfl)

/-! ### setLenr -/

@[simp] theorem State.setLenr_h (v : Word) : (s.setLenr v).h = s.h := (rfl)
@[simp] theorem State.setLenr_p (v : Word) : (s.setLenr v).p = s.p := (rfl)
@[simp] theorem State.setLenr_result (v : Word) : (s.setLenr v).result = s.result := (rfl)
@[simp] theorem State.setLenr_valid (v : Word) : (s.setLenr v).valid = s.valid := (rfl)
@[simp] theorem State.setLenr_err (v : Word) : (s.setLenr v).err = s.err := (rfl)
@[simp] theorem State.setLenr_ecause (v : Word) : (s.setLenr v).ecause = s.ecause := (rfl)
@[simp] theorem State.setLenr_phase (v : Word) : (s.setLenr v).phase = s.phase := (rfl)
@[simp] theorem State.setLenr_lenr (v : Word) : (s.setLenr v).lenr = v := (rfl)
@[simp] theorem State.setLenr_key (v : Word) : (s.setLenr v).key = s.key := (rfl)
@[simp] theorem State.setLenr_turns (v : Word) : (s.setLenr v).turns = s.turns := (rfl)
@[simp] theorem State.setLenr_draws (v : Word) : (s.setLenr v).draws = s.draws := (rfl)

/-! ### setKey -/

@[simp] theorem State.setKey_h (v : List Host.Cell) : (s.setKey v).h = s.h := (rfl)
@[simp] theorem State.setKey_p (v : List Host.Cell) : (s.setKey v).p = s.p := (rfl)
@[simp] theorem State.setKey_result (v : List Host.Cell) : (s.setKey v).result = s.result := (rfl)
@[simp] theorem State.setKey_valid (v : List Host.Cell) : (s.setKey v).valid = s.valid := (rfl)
@[simp] theorem State.setKey_err (v : List Host.Cell) : (s.setKey v).err = s.err := (rfl)
@[simp] theorem State.setKey_ecause (v : List Host.Cell) : (s.setKey v).ecause = s.ecause := (rfl)
@[simp] theorem State.setKey_phase (v : List Host.Cell) : (s.setKey v).phase = s.phase := (rfl)
@[simp] theorem State.setKey_lenr (v : List Host.Cell) : (s.setKey v).lenr = s.lenr := (rfl)
@[simp] theorem State.setKey_key (v : List Host.Cell) : (s.setKey v).key = v := (rfl)
@[simp] theorem State.setKey_turns (v : List Host.Cell) : (s.setKey v).turns = s.turns := (rfl)
@[simp] theorem State.setKey_draws (v : List Host.Cell) : (s.setKey v).draws = s.draws := (rfl)

/-! ### setTurns -/

@[simp] theorem State.setTurns_h (v : List Turn) : (s.setTurns v).h = s.h := (rfl)
@[simp] theorem State.setTurns_p (v : List Turn) : (s.setTurns v).p = s.p := (rfl)
@[simp] theorem State.setTurns_result (v : List Turn) : (s.setTurns v).result = s.result := (rfl)
@[simp] theorem State.setTurns_valid (v : List Turn) : (s.setTurns v).valid = s.valid := (rfl)
@[simp] theorem State.setTurns_err (v : List Turn) : (s.setTurns v).err = s.err := (rfl)
@[simp] theorem State.setTurns_ecause (v : List Turn) : (s.setTurns v).ecause = s.ecause := (rfl)
@[simp] theorem State.setTurns_phase (v : List Turn) : (s.setTurns v).phase = s.phase := (rfl)
@[simp] theorem State.setTurns_lenr (v : List Turn) : (s.setTurns v).lenr = s.lenr := (rfl)
@[simp] theorem State.setTurns_key (v : List Turn) : (s.setTurns v).key = s.key := (rfl)
@[simp] theorem State.setTurns_turns (v : List Turn) : (s.setTurns v).turns = v := (rfl)
@[simp] theorem State.setTurns_draws (v : List Turn) : (s.setTurns v).draws = s.draws := (rfl)

/-! ### setFault -/

@[simp] theorem State.setFault_h (c : Cause) : (s.setFault c).h = s.h := (rfl)
@[simp] theorem State.setFault_p (c : Cause) : (s.setFault c).p = s.p := (rfl)
@[simp] theorem State.setFault_result (c : Cause) : (s.setFault c).result = s.result := (rfl)
@[simp] theorem State.setFault_valid (c : Cause) : (s.setFault c).valid = s.valid := (rfl)
@[simp] theorem State.setFault_err (c : Cause) : (s.setFault c).err = true := (rfl)
@[simp] theorem State.setFault_ecause (c : Cause) : (s.setFault c).ecause = some c := (rfl)
@[simp] theorem State.setFault_phase (c : Cause) : (s.setFault c).phase = s.phase := (rfl)
@[simp] theorem State.setFault_lenr (c : Cause) : (s.setFault c).lenr = s.lenr := (rfl)
@[simp] theorem State.setFault_key (c : Cause) : (s.setFault c).key = s.key := (rfl)
@[simp] theorem State.setFault_turns (c : Cause) : (s.setFault c).turns = s.turns := (rfl)
@[simp] theorem State.setFault_draws (c : Cause) : (s.setFault c).draws = s.draws := (rfl)

/-! ### draw -/

@[simp] theorem State.draw_h (n : Nat) : (s.draw n).h = s.h := (rfl)
@[simp] theorem State.draw_p (n : Nat) : (s.draw n).p = s.p := (rfl)
@[simp] theorem State.draw_result (n : Nat) : (s.draw n).result = s.result := (rfl)
@[simp] theorem State.draw_valid (n : Nat) : (s.draw n).valid = s.valid := (rfl)
@[simp] theorem State.draw_err (n : Nat) : (s.draw n).err = s.err := (rfl)
@[simp] theorem State.draw_ecause (n : Nat) : (s.draw n).ecause = s.ecause := (rfl)
@[simp] theorem State.draw_phase (n : Nat) : (s.draw n).phase = s.phase := (rfl)
@[simp] theorem State.draw_lenr (n : Nat) : (s.draw n).lenr = s.lenr := (rfl)
@[simp] theorem State.draw_key (n : Nat) : (s.draw n).key = s.key := (rfl)
@[simp] theorem State.draw_turns (n : Nat) : (s.draw n).turns = s.turns := (rfl)
@[simp] theorem State.draw_draws (n : Nat) : (s.draw n).draws = s.draws + n := (rfl)

/-! ### reset -/

@[simp] theorem applyReset_h : (applyReset s).h = Config.freeWord s.draws := (rfl)
@[simp] theorem applyReset_p : (applyReset s).p = Config.freeWord (s.draws + 1) := (rfl)
@[simp] theorem applyReset_result : (applyReset s).result = Config.freeWord (s.draws + 2) := (rfl)
@[simp] theorem applyReset_valid : (applyReset s).valid = false := (rfl)
@[simp] theorem applyReset_err : (applyReset s).err = false := (rfl)
@[simp] theorem applyReset_ecause : (applyReset s).ecause = none := (rfl)
@[simp] theorem applyReset_phase : (applyReset s).phase = .idle := (rfl)
@[simp] theorem applyReset_lenr : (applyReset s).lenr = Config.freeWord (s.draws + 3) := (rfl)
@[simp] theorem applyReset_key : (applyReset s).key = s.key := (rfl)
@[simp] theorem applyReset_turns : (applyReset s).turns = s.turns := (rfl)
@[simp] theorem applyReset_draws : (applyReset s).draws = s.draws + 4 := (rfl)

end Sys2Proof.Machine
end

