-- ==== Sys2Proof/Laws/Memory.lean ====
section
/-! SUPPORT. The key memory: its canonical form, what a placed key reads as, and that every operation on it
keeps the form. -/

namespace Sys2Proof.Machine

@[simp] theorem Memory.ofBytesFrom_length (bytes : List Byte) (a : Nat) :
    (Memory.ofBytesFrom a bytes).length = bytes.length := by
  induction bytes generalizing a with
  | nil => rfl
  | cons b bs ih => simp [Memory.ofBytesFrom, ih]

theorem Memory.ofBytesFrom_wfFrom (bytes : List Byte) (a : Nat) :
    Memory.wfFrom a (Memory.ofBytesFrom a bytes) = true := by
  induction bytes generalizing a with
  | nil => rfl
  | cons b bs ih => simp [Memory.ofBytesFrom, Memory.wfFrom, ih]

/-- A placed key is in canonical form. -/
theorem Memory.ofBytes_wf {bytes : List Byte} (h : bytes.length < 2 ^ 32) :
    Memory.wf (Memory.ofBytes bytes) = true := by
  have := Memory.ofBytesFrom_wfFrom bytes 0
  simp_all [Memory.wf, Memory.ofBytes]

/-- The empty key memory of `State.reset` is in canonical form. -/
theorem State.reset_key_wf : Memory.wf State.reset.key = true := by decide

/-- A canonical memory is the placing of the bytes it holds: equal byte sequences are equal memories. -/
theorem Memory.ofBytesFrom_bytes {m : List Host.Cell} {a : Nat} (h : Memory.wfFrom a m = true) :
    Memory.ofBytesFrom a (Memory.bytes m) = m := by
  induction m generalizing a with
  | nil => rfl
  | cons c m ih =>
    obtain ⟨x, b⟩ := c
    simp only [Memory.wfFrom, Bool.and_eq_true, decide_eq_true_eq] at h
    have := ih h.2
    simp_all [Memory.bytes, Memory.ofBytesFrom]

/-- Reading a canonical memory from address `a` on. -/
theorem Memory.lookup_of_wfFrom {m : List Host.Cell} {a : Nat} (h : Memory.wfFrom a m = true) (i : Nat) :
    Memory.lookup m (a + i) = (Memory.bytes m)[i]? := by
  induction m generalizing a i with
  | nil => rfl
  | cons c m ih =>
    obtain ⟨x, b⟩ := c
    simp only [Memory.wfFrom, Bool.and_eq_true, decide_eq_true_eq] at h
    obtain ⟨rfl, hm⟩ := h
    cases i with
    | zero => simp [Memory.lookup, Memory.bytes]
    | succ i =>
      have := ih hm i
      simp only [Memory.lookup, Memory.bytes, List.map_cons, List.getElem?_cons_succ]
      rw [if_neg (by omega), ← Nat.add_assoc, Nat.add_right_comm]
      exact this

/-- `MemRead` of a byte inside the key (R41). -/
theorem State.memRead_of_lt {s : State} (h : Memory.wf s.key = true) {i : Nat} (hi : i < s.klen) :
    s.memRead i = (Memory.bytes s.key).getD i 0 := by
  simp only [Memory.wf, Bool.and_eq_true] at h
  have hl := Memory.lookup_of_wfFrom h.1 i
  have hi' : i < (Memory.bytes s.key).length := by simpa [Memory.bytes, State.klen] using hi
  rw [Nat.zero_add] at hl
  simp [State.memRead, hl, hi', List.getD_eq_getElem?_getD]

/-- `MemRead` at or above `KLEN` is a free byte (R48). -/
theorem State.memRead_of_ge {s : State} (h : Memory.wf s.key = true) {i : Nat} (hi : s.klen ≤ i) :
    s.memRead i = Config.freeByte s.draws i := by
  simp only [Memory.wf, Bool.and_eq_true] at h
  have hl := Memory.lookup_of_wfFrom h.1 i
  have hi' : (Memory.bytes s.key).length ≤ i := by simpa [Memory.bytes, State.klen] using hi
  rw [Nat.zero_add, List.getElem?_eq_none hi'] at hl
  simp [State.memRead, hl]

end Sys2Proof.Machine
end

