-- ==== Sys2Proof/Laws/Ops.lean ====
section
/-! SUPPORT. What each shared operation can do, said once. -/

namespace Sys2Proof.Machine

/-- The guard answers exactly one state: the old one while `ERR = 1`, the effect's otherwise. -/
theorem datapath_next {f : State → State} {s t : State} (h : datapath f s = .next t) :
    (s.err = true ∧ t = s) ∨ (s.err = false ∧ t = f s) := by
  simp only [datapath, Host.Outcome.next.injEq] at h
  cases he : s.err <;> simp_all

/-- Raising `IllegalOp` leaves a faulted state alone and otherwise writes the flag and the cause. -/
theorem raiseIllegalOp_cases (c : Cause) (s : State) :
    (s.err = true ∧ raiseIllegalOp c s = s) ∨ (s.err = false ∧ raiseIllegalOp c s = s.setFault c) := by
  cases he : s.err <;> simp [raiseIllegalOp, he]

/-- A presented word runs the operation it decodes to, or raises its cause. -/
theorem presentWord_next {w : OpWord} {s t : State} (h : presentWord w s = .next t) :
    (∃ i, decode w = .legal i ∧ exec i s = .next t) ∨
      (∃ c, decode w = .illegal c ∧ t = raiseIllegalOp c s) := by
  simp only [presentWord] at h
  split at h
  · exact .inl ⟨_, ‹_›, h⟩
  · exact .inr ⟨_, ‹_›, by simpa using h.symm⟩

/-- The sequencer's issue is the presentation of the operation's word followed by the new phase. -/
theorem issue_next {i : Instr} {ph : Phase} {s t : State} (h : issue i ph s = .next t) :
    ∃ u, presentWord (encode i) s = .next u ∧ t = u.setPhase ph := by
  simp only [issue] at h
  split at h
  · exact ⟨_, ‹_›, by simpa using h.symm⟩
  · cases h
  · cases h

/-- `start` is accepted when `ready = 1` and otherwise changes nothing. -/
theorem startMove_next {seed len : Word} {s t : State} (h : startMove seed len s = .next t) :
    (s.ready = true ∧ acceptStart seed len s = .next t) ∨ (s.ready = false ∧ t = s) := by
  simp only [startMove] at h
  split at h
  · exact .inl ⟨‹_›, h⟩
  · exact .inr ⟨by simp_all, by simpa using h.symm⟩

/-- The block's turn: at rest while faulted or waiting, otherwise the enabled step of R142 to R144. -/
theorem blockTurn_next {s t : State} (h : blockTurn s = .next t) :
    (s.err = true ∧ t = s) ∨
      (s.err = false ∧ s.blockEnabled = true ∧ issue .block .absorb s = .next t) ∨
      (s.err = false ∧ s.tailEnabled = true ∧ issue (tailOf (tailCount s.lenr)) .final s = .next t) ∨
      (s.err = false ∧ s.finalEnabled = true ∧ issue (.final s.lenr) .done s = .next t) ∨
      (s.err = false ∧ s.waiting = true ∧ t = s) := by
  simp only [blockTurn] at h
  split at h
  · exact .inl ⟨‹_›, by simpa using h.symm⟩
  · have he : s.err = false := by simp_all
    split at h
    · exact .inr (.inl ⟨he, ‹_›, h⟩)
    · split at h
      · exact .inr (.inr (.inl ⟨he, ‹_›, h⟩))
      · split at h
        · exact .inr (.inr (.inr (.inl ⟨he, ‹_›, h⟩)))
        · refine .inr (.inr (.inr (.inr ⟨he, ?_, by simpa using h.symm⟩)))
          cases hp : s.phase <;>
            simp_all [State.waiting, State.blockEnabled, State.tailEnabled, State.finalEnabled]

/-- Placing a key: only while `BUSY = 0`, and the memory it leaves is canonical. -/
theorem fillKeyMove_next {bytes : List Byte} {s t : State} (h : fillKeyMove bytes s = .next t) :
    s.busy = false ∧ bytes.length < 2 ^ 32 ∧ t = s.setKey (Memory.ofBytes bytes) ∧
      Memory.wf t.key = true := by
  simp only [fillKeyMove] at h
  split at h
  · cases h
  · split at h
    · have ht : t = s.setKey (Memory.ofBytes bytes) := by simpa using h.symm
      exact ⟨by simp_all, ‹_›, ht, by rw [ht]; exact Memory.ofBytes_wf ‹_›⟩
    · cases h

/-- Everything a step can do: the turn it takes and the state that turn is taken in. -/
theorem step_next {s t : State} (h : step s = .next t) :
    (s.turns = [] ∧ blockTurn s = .next t) ∨
      (∃ rest, s.turns = .block :: rest ∧ blockTurn (s.setTurns rest) = .next t) ∨
      (∃ rest, s.turns = .host .reset :: rest ∧ t = applyReset (s.setTurns rest)) ∨
      (∃ seed len rest, s.turns = .host (.start seed len) :: rest ∧
        startMove seed len (s.setTurns rest) = .next t) ∨
      (∃ bytes rest, s.turns = .host (.fillKey bytes) :: rest ∧
        fillKeyMove bytes (s.setTurns rest) = .next t) ∨
      (∃ w rest, s.turns = .present w :: rest ∧ presentWord w (s.setTurns rest) = .next t) := by
  simp only [step, nextTurn] at h
  split at h
  · exact .inl ⟨‹_›, h⟩
  · rename_i turn rest hts
    cases turn with
    | block => exact .inr (.inl ⟨rest, hts, h⟩)
    | present w => exact .inr (.inr (.inr (.inr (.inr ⟨w, rest, hts, h⟩))))
    | host m =>
      cases m with
      | reset => exact .inr (.inr (.inl ⟨rest, hts, by simpa [takeTurn, hostMove] using h.symm⟩))
      | start seed len => exact .inr (.inr (.inr (.inl ⟨seed, len, rest, hts, h⟩)))
      | fillKey bytes => exact .inr (.inr (.inr (.inr (.inl ⟨bytes, rest, hts, h⟩))))

/-- No operation writes the key memory or the turns, in a faulted state or not (R46). -/
theorem exec_key_turns {i : Instr} {s t : State} (h : exec i s = .next t) :
    t.key = s.key ∧ t.turns = s.turns := by
  cases i <;>
    simp only [exec, execNop, execInit, execBlock, execTail0, execTail1, execTail2, execTail3, execFinal]
      at h <;>
    rcases datapath_next h with ⟨_, rfl⟩ | ⟨_, rfl⟩ <;> simp

/-- Nothing presented on the port writes the key memory or the turns. -/
theorem presentWord_key_turns {w : OpWord} {s t : State} (h : presentWord w s = .next t) :
    t.key = s.key ∧ t.turns = s.turns := by
  rcases presentWord_next h with ⟨i, _, h⟩ | ⟨c, _, rfl⟩
  · exact exec_key_turns h
  · rcases raiseIllegalOp_cases c s with ⟨_, h⟩ | ⟨_, h⟩ <;> rw [h] <;> exact ⟨rfl, rfl⟩

end Sys2Proof.Machine
end

