-- ==== Sys2Proof/Laws/PerInstr.lean ====
section
/-! SUPPORT. The per-instruction family `TableWord`: the encoder's word of an instruction selects the row of
spec/opcode_table.json that has the instruction's mnemonic, and no other row (R62). -/

namespace Sys2Proof.Laws.TableWord

/-- The row of the table with the instruction's mnemonic is the only one its word selects. -/
def Statement (i : Instr) : Prop :=
  (tableRows.filter fun r => r.selectedBy (encode i)).map TableRow.mnemonic = [mnemonicOf i]

/-- The opcode bits of a word, whatever its argument. -/
theorem opWord_and (op : BitVec 3) (arg : Word) : opWord op arg &&& 0x700000000 = opWord op 0 := by
  have h : (0x700000000 : OpWord) = (7#3 ++ 0#32 : BitVec 35) := by decide
  have h7 : op &&& 7#3 = op := by simpa using BitVec.and_allOnes (x := op)
  rw [h, opWord, BitVec.and_append, h7, BitVec.and_zero]
  rfl

/-- A row whose mask keeps the opcode alone is selected by the opcode. -/
theorem selectedBy_opcode (op : BitVec 3) (arg : Word) (m : String) (k : OpWord) :
    TableRow.selectedBy ⟨m, k, 0x700000000⟩ (opWord op arg) = decide (opWord op 0 = k) := by
  simp only [TableRow.selectedBy, opWord_and]

/-- A row whose mask keeps every bit is not selected by a word of another opcode. -/
theorem selectedBy_full (op : BitVec 3) (arg : Word) (m : String) {k : OpWord}
    (h : opWord op 0 ≠ k &&& 0x700000000) :
    TableRow.selectedBy ⟨m, k, 0x7FFFFFFFF⟩ (opWord op arg) = false := by
  simp only [TableRow.selectedBy, decide_eq_false_iff_not]
  intro hk
  apply h
  rw [← opWord_and op arg, ← hk, BitVec.and_assoc]
  congr 1

theorem nop : Statement .nop := by unfold Statement; decide
theorem block : Statement .block := by unfold Statement; decide
theorem tail0 : Statement .tail0 := by unfold Statement; decide
theorem tail1 : Statement .tail1 := by unfold Statement; decide
theorem tail2 : Statement .tail2 := by unfold Statement; decide
theorem tail3 : Statement .tail3 := by unfold Statement; decide

theorem init (seed : Word) : Statement (.init seed) := by
  simp only [Statement, tableRows, encode, List.filter, selectedBy_opcode,
    selectedBy_full 1 seed _ (k := 0x000000000) (by decide),
    selectedBy_full 1 seed _ (k := 0x200000000) (by decide),
    selectedBy_full 1 seed _ (k := 0x300000000) (by decide),
    selectedBy_full 1 seed _ (k := 0x300000001) (by decide),
    selectedBy_full 1 seed _ (k := 0x300000002) (by decide),
    selectedBy_full 1 seed _ (k := 0x300000003) (by decide)]
  rfl

theorem final (len : Word) : Statement (.final len) := by
  simp only [Statement, tableRows, encode, List.filter, selectedBy_opcode,
    selectedBy_full 4 len _ (k := 0x000000000) (by decide),
    selectedBy_full 4 len _ (k := 0x200000000) (by decide),
    selectedBy_full 4 len _ (k := 0x300000000) (by decide),
    selectedBy_full 4 len _ (k := 0x300000001) (by decide),
    selectedBy_full 4 len _ (k := 0x300000002) (by decide),
    selectedBy_full 4 len _ (k := 0x300000003) (by decide)]
  rfl

end Sys2Proof.Laws.TableWord
end

