-- ==== Sys2Proof/Tests/Slice0.lean ====
section
/-! SUPPORT. The model's own tests: worked examples of spec/95_test_vectors.md and of the rules, the smoke tests
of WellFormed, and for each obligation with hypotheses a concrete state and operands that meet them. -/

namespace Sys2Proof.Tests

open Sys2Proof.Machine

/-- A small state: every register 0, the key "test" placed, nobody's turn listed. -/
def base : State where
  h := 0
  p := 0
  result := 0
  valid := false
  err := false
  ecause := none
  phase := .idle
  lenr := 0
  key := Memory.ofBytes [0x74, 0x65, 0x73, 0x74]
  turns := []
  draws := 0

/-- `base` with another key and hash. -/
def keyed (h : Word) (bytes : List Byte) : State := (base.setH h).setKey (Memory.ofBytes bytes)

/-- `base` in a phase, with `P` and `LENR`. -/
def inPhase (ph : Phase) (p len : Word) : State := ((base.setPhase ph).setP p).setLenr len

/-- The faulted state P6 ends in (95_test_vectors.md section 3). -/
def faulted : State := base.setFault .reservedBits

/-- What a state answered by a step satisfies; a stop satisfies nothing. -/
def after (o : Host.Outcome State Fault Refusal) (f : State → Bool) : Bool :=
  match o with
  | .next t => f t
  | .fault _ => false
  | .refused _ => false

/-! ### WellFormed refuses what R67 calls an error -/

theorem test_wf_init_too_wide : (AsmLine.init (2 ^ 32)).wellFormed = false := by decide
theorem test_wf_tail_four : (AsmLine.tail 4).wellFormed = false := by decide
theorem test_wf_final_too_wide : (AsmLine.final (2 ^ 32)).wellFormed = false := by decide
theorem test_wf_word_too_wide : (AsmLine.word (2 ^ 35)).wellFormed = false := by decide
theorem test_wf_hash_seed_too_wide : (AsmLine.hash (2 ^ 32) 0).wellFormed = false := by decide
theorem test_wf_hash_len_too_wide : (AsmLine.hash 0 (2 ^ 32)).wellFormed = false := by decide
theorem test_wf_hash_default_too_wide : (AsmLine.hashDefault (2 ^ 32)).wellFormed = false := by decide
theorem test_wf_in_range : (AsmLine.tail 3).wellFormed = true ∧ (AsmLine.init 0xFFFFFFFF).wellFormed = true ∧
    (Instr.final 0).wellFormed = true := by decide

/-! ### Decoding words written out bit by bit from R61, R62 (opcode, then argument) -/

theorem test_decode_nop : decode 0b000_00000000000000000000000000000000 = .legal .nop := by decide
theorem test_decode_init :
    decode 0b001_10010111010001111011001010001100 = .legal (.init 0x9747B28C) := by decide
theorem test_decode_block : decode 0b010_00000000000000000000000000000000 = .legal .block := by decide
theorem test_decode_tail0 : decode 0b011_00000000000000000000000000000000 = .legal .tail0 := by decide
theorem test_decode_tail1 : decode 0b011_00000000000000000000000000000001 = .legal .tail1 := by decide
theorem test_decode_tail2 : decode 0b011_00000000000000000000000000000010 = .legal .tail2 := by decide
theorem test_decode_tail3 : decode 0b011_00000000000000000000000000000011 = .legal .tail3 := by decide
theorem test_decode_final :
    decode 0b100_11111111111111111111111111111110 = .legal (.final 0xFFFFFFFE) := by decide
/-- 95_test_vectors.md section 2.9: the illegal words. -/
theorem test_decode_illegal :
    decode 0x000000001 = .illegal .reservedBits ∧ decode 0x080000000 = .illegal .reservedBits ∧
    decode 0x200000004 = .illegal .reservedBits ∧ decode 0x300000004 = .illegal .reservedBits ∧
    decode 0x3FFFFFFFF = .illegal .reservedBits ∧ decode 0x500000000 = .illegal .reservedOpcode ∧
    decode 0x6DEADBEEF = .illegal .reservedOpcode ∧ decode 0x7FFFFFFFF = .illegal .reservedOpcode := by decide
theorem test_decodeTableWord :
    decodeTableWord 40 0x300000002 = some .tail2 ∧ decodeTableWord 40 0x300000004 = none ∧
    decodeTableWord 40 0x8300000002 = none := by decide

/-! ### Functional units (95_test_vectors.md section 2.1) -/

theorem test_lepack : lepack4 0xFF 0x00 0x00 0x80 = 0x800000FF ∧ lepack1 0x80 = 0x00000080 ∧
    lepack2 0x48 0x69 = 0x00006948 ∧ lepack3 0xAA 0xBB 0xCC = 0x00CCBBAA := by decide
theorem test_mac : mac32 0xFFFFFFFF 1 1 = 0 ∧ mac32 0xDEADBEEF f1 0 = 0x9BAC63E5 ∧
    mac32 0x12345678 hashMul hashAdd = 0x415A1BBC := by decide
theorem test_rotl : rotl32 0x12345678 .r1 = 0x2B3C091A ∧ rotl32 0x12345678 .r2 = 0x8ACF0246 := by decide
theorem test_fold : shr32 0x80000000 .s16 = 0x00008000 ∧ fold 0xDEADBEEF .s13 = 0xDEAB4B82 := by decide
theorem test_kmix : kmix 0x74736574 = 0x465F51E8 ∧ kmix 0xFFFFFFFF = 0xBBEEB010 := by decide

/-! ### Operations (95_test_vectors.md sections 2.2 to 2.5) -/

theorem test_init : after (exec (.init 0x9747B28C) (base.setP 4)) (fun t =>
    decide (t.h = 0x9747B28C ∧ t.p = 0 ∧ t.valid = false)) = true := by decide
theorem test_nop : exec .nop (keyed 0x12345678 []) = .next (keyed 0x12345678 []) := rfl
theorem test_block : after (exec .block base) (fun t => decide (t.h = 0x7985975B ∧ t.p = 4)) = true := by decide
/-- The row of 2.3 whose chunk has bytes with bit 7 set. -/
theorem test_block_high_bytes : after (exec .block
    ((keyed 0xDEADBEEF [0, 0, 0, 0, 0, 0, 0, 0, 0xFF, 0, 0, 0x80]).setP 8)) (fun t =>
      decide (t.h = 0x6C9F20EE ∧ t.p = 12)) = true := by decide
theorem test_block_wraps : after (exec .block (base.setP 0xFFFFFFFC)) (fun t => decide (t.p = 0)) = true := by
  decide
theorem test_tail0 : after (exec .tail0 (keyed 0x12345678 [])) (fun t => decide (t.h = 0x12345678)) = true := by
  decide
theorem test_tail1 : after (exec .tail1 (keyed 0x12345678 [0x80])) (fun t =>
    decide (t.h = 0x3E672DA9 ∧ t.p = 0)) = true := by decide
theorem test_tail2 : after (exec .tail2 (keyed 0x12345678 [0xAA, 0xBB])) (fun t =>
    decide (t.h = 0x98F9902E)) = true := by decide
theorem test_tail3 : after (exec .tail3 (keyed 0x12345678 [0xAA, 0xBB, 0xCC])) (fun t =>
    decide (t.h = 0x648020F0)) = true := by decide
theorem test_final : after (exec (.final 7) (keyed 0x12345678 [])) (fun t =>
    decide (t.h = 0xAFDE5AF2 ∧ t.result = 0xAFDE5AF2 ∧ t.valid = true)) = true := by decide
theorem test_final_cancels : after (exec (.final 0xFFFFFFFF) (keyed 0xFFFFFFFF [])) (fun t =>
    decide (t.result = 0)) = true := by decide

/-! ### The port, the fault and the host (sections 2.9, 2.10, P6) -/

theorem test_illegal_sets_cause : presentWord 0x300000004 base = .next faulted := rfl
theorem test_faulted_ignores_final : presentWord 0x400000004 faulted = .next faulted := rfl
theorem test_first_cause_stays : presentWord 0x500000000 faulted = .next faulted := rfl
theorem test_reset_leaves_fault : after (hostMove .reset faulted) (fun t =>
    decide (t.err = false ∧ t.status = 0x00 ∧ t.ready = true)) = true := by decide
theorem test_start : after (hostMove (.start 0 4) base) (fun t =>
    decide (t.lenr = 4 ∧ t.h = 0 ∧ t.p = 0 ∧ t.status = 0x22 ∧ t.ready = false)) = true := by decide
theorem test_start_busy : hostMove (.start 0 4) (inPhase .absorb 0 4) = .next (inPhase .absorb 0 4) := rfl
theorem test_status_final_done : (inPhase .final 0 4).status = 0x42 ∧
    ((inPhase .done 4 4).setValid true).status = 0x61 := by decide
/-- A word placed right after reset is the one the next step runs; `block` completes on free bytes. -/
theorem test_fetch_from_reset : after (step (State.reset.withFetchWord 40 0x100000007)) (fun t =>
    decide (t.h = 7)) = true ∧
    after (step (State.reset.withFetchWord 40 0x200000000)) (fun t => !t.err) = true := by decide

/-! ### The contract and the sequencer (sections 1.2, 2.6) -/

theorem test_murmur_hello : murmur3Bytes
    [0x48, 0x65, 0x6C, 0x6C, 0x6F, 0x2C, 0x20, 0x77, 0x6F, 0x72, 0x6C, 0x64, 0x21] 0 = 0xC0363E43 := by decide
theorem test_murmur_high_bytes : murmur3Bytes [0x80, 0x81, 0x82, 0x83, 0x84, 0x85, 0x86] 0x9747B28C =
    0x451C104F := by decide
theorem test_murmur_indexed : murmur3 base.keyFn 4 0 = 0xBA6BD213 := by decide

/-! ### The assembler (R67, R68; words of P3) -/

theorem test_assemble_text : assembleText
    ['i', 'n', 'i', 't', ' ', '0', 'x', '9', '7', '4', '7', 'B', '2', '8', 'C', ' ', '#', ' ', 'a', '\n',
     '\n', '.', 'w', 'o', 'r', 'd', ' ', '0', 'x', '3', '0', '0', '0', '0', '0', '0', '0', '4'] =
    some [0x19747B28C, 0x300000004] := by decide
theorem test_assemble_hash : assembleText ['h', 'a', 's', 'h', ' ', '0', ',', ' ', '4'] =
    some [0x100000000, 0x200000000, 0x300000000, 0x400000004] := by decide
theorem test_assemble_error : assembleText ['t', 'a', 'i', 'l', ' ', '4'] = none := by decide

/-! ### Witnesses: for each obligation with hypotheses, what meets them -/

theorem witness_DecoderIsTotalAndInverseOfEncoder :
    (0x000000000 : OpWord).toNat / 2 ^ 32 = 0 ∧ (0x000000000 : OpWord).toNat % 2 ^ 32 = 0 ∧
    (0x000000001 : OpWord).toNat / 2 ^ 32 = 0 ∧ (0x000000001 : OpWord).toNat % 2 ^ 32 ≠ 0 ∧
    (0x1FFFFFFFF : OpWord).toNat / 2 ^ 32 = 1 ∧
    (0x200000000 : OpWord).toNat / 2 ^ 32 = 2 ∧ (0x200000000 : OpWord).toNat % 2 ^ 32 = 0 ∧
    (0x2FFFFFFFF : OpWord).toNat / 2 ^ 32 = 2 ∧ (0x2FFFFFFFF : OpWord).toNat % 2 ^ 32 ≠ 0 ∧
    (0x300000000 : OpWord).toNat / 2 ^ 32 = 3 ∧ (0x300000000 : OpWord).toNat % 2 ^ 32 = 0 ∧
    (0x300000001 : OpWord).toNat % 2 ^ 32 = 1 ∧ (0x300000002 : OpWord).toNat % 2 ^ 32 = 2 ∧
    (0x300000003 : OpWord).toNat % 2 ^ 32 = 3 ∧ 4 ≤ (0x300000004 : OpWord).toNat % 2 ^ 32 ∧
    (0x400000000 : OpWord).toNat / 2 ^ 32 = 4 ∧ 5 ≤ (0x500000000 : OpWord).toNat / 2 ^ 32 ∧
    Instr.tail3.wellFormed = true ∧ decode 0x300000003 = .legal .tail3 := by decide
theorem witness_TableRowsSelectWhatDecodes :
    decode 0x1FFFFFFFF = .legal (.init 0xFFFFFFFF) ∧ decode 0x2FFFFFFFF = .illegal .reservedBits ∧
    decode 0x500000000 = .illegal .reservedOpcode := by decide
theorem witness_IllegalWordsAreExactlyThese :
    decode 0x300000004 = .illegal .reservedBits ∧ decode 0x500000000 = .illegal .reservedOpcode ∧
    base.err = false := by decide
theorem witness_RotationMovesEachBit : (0 : Nat) < 32 ∧ (31 : Nat) < 32 := by decide
theorem witness_FoldIsABijection : 15 + shrBits .s16 < 32 ∧ 32 ≤ 16 + shrBits .s16 ∧ 18 + shrBits .s13 < 32 ∧
    32 ≤ 19 + shrBits .s13 := by decide
theorem witness_InitStartsAComputation : base.err = false := rfl
theorem witness_BlockFoldsOneChunk : base.err = false ∧ (base.setP 0xFFFFFFFC).err = false := ⟨rfl, rfl⟩
theorem witness_TailXorsThePartialWord : base.err = false ∧ (1 = 1 ∧ Instr.tail1 = .tail1) ∧
    (2 = 2 ∧ Instr.tail2 = .tail2) ∧ (3 = 3 ∧ Instr.tail3 = .tail3) := by decide
theorem witness_FinalDeliversTheHash : base.err = false := rfl
theorem witness_FaultedDatapathIgnoresWords : faulted.err = true ∧ faulted.turns = [] ∧
    after (step faulted) (fun _ => true) = true := by decide
theorem witness_IllegalOpSetsTheCause : decode 0x300000004 = .illegal .reservedBits ∧
    (0x300000004 : OpWord).toNat / 2 ^ 32 < 5 ∧ decode 0x500000000 = .illegal .reservedOpcode ∧
    5 ≤ (0x500000000 : OpWord).toNat / 2 ^ 32 ∧ base.err = false := by decide
theorem witness_OperationsWriteOnlyTheirColumn : exec .nop base = .next base ∧
    (∀ len, Instr.nop ≠ .final len) ∧ (∀ seed, Instr.nop ≠ .init seed) ∧ Instr.nop ≠ .block ∧
    exec .nop faulted = .next faulted := ⟨rfl, by simp, by simp, by simp, rfl⟩
theorem witness_OperationsReadOnlyTheirBytes :
    (∀ a ∈ keyReads .tail1 base, Memory.lookup (Memory.ofBytes [0x74]) a = Memory.lookup base.key a) ∧
    after (exec .tail1 base) (fun _ => true) = true ∧ base.err = false ∧
    decode 0x500000000 = .illegal .reservedOpcode := by decide
theorem witness_StepRunsThePresentedOperation :
    (base.setTurns [.present 0x200000000]).turns = .present 0x200000000 :: [] ∧
    decode 0x200000000 = .legal .block ∧ Instr.block.wellFormed = true ∧
    (base.setTurns [.present 0x500000000]).turns = .present 0x500000000 :: [] ∧
    decode 0x500000000 = .illegal .reservedOpcode ∧ decodeTableWord 40 0x200000000 = some .block := by decide
theorem witness_ResetFromAnyState : (faulted.setTurns [.host .reset]).turns = .host .reset :: [] := rfl
theorem witness_StartIsAcceptedOnlyWhenReady :
    (base.setTurns [.host (.start 0 4)]).turns = .host (.start 0 4) :: [] ∧
    (base.setTurns [.host (.start 0 4)]).ready = true ∧
    ((inPhase .final 0 4).setTurns [.host (.start 0 4)]).ready = false := by decide
theorem witness_SequencerBlockStep : (inPhase .absorb 0 4).turns = [] ∧ (inPhase .absorb 0 4).err = false ∧
    (inPhase .absorb 0 4).phase = .absorb ∧
    (inPhase .absorb 0 4).p.toNat / 4 ≠ (inPhase .absorb 0 4).lenr.toNat / 4 := by decide
theorem witness_SequencerTailStep : (inPhase .absorb 4 7).turns = [] ∧ (inPhase .absorb 4 7).err = false ∧
    (inPhase .absorb 4 7).phase = .absorb ∧
    (inPhase .absorb 4 4).p.toNat / 4 = (inPhase .absorb 4 4).lenr.toNat / 4 ∧
    (inPhase .absorb 4 5).p.toNat / 4 = (inPhase .absorb 4 5).lenr.toNat / 4 ∧
    (inPhase .absorb 4 6).p.toNat / 4 = (inPhase .absorb 4 6).lenr.toNat / 4 ∧
    (inPhase .absorb 4 7).p.toNat / 4 = (inPhase .absorb 4 7).lenr.toNat / 4 ∧
    (inPhase .absorb 4 4).lenr.toNat % 4 = 0 ∧ (inPhase .absorb 4 5).lenr.toNat % 4 = 1 ∧
    (inPhase .absorb 4 6).lenr.toNat % 4 = 2 ∧ (inPhase .absorb 4 7).lenr.toNat % 4 = 3 := by decide
theorem witness_SequencerFinalStep : (inPhase .final 4 7).turns = [] ∧ (inPhase .final 4 7).err = false ∧
    (inPhase .final 4 7).phase = .final := by decide
theorem witness_ExactlyOneRuleIsEnabled : base.waiting = true ∧ base.turns = [] ∧
    (inPhase .done 0 0).waiting = true := by decide
theorem witness_PlacedKeyReadsBack :
    (base.setTurns [.host (.fillKey [1])]).turns = .host (.fillKey [1]) :: [] ∧
    (base.setTurns [.host (.fillKey [1])]).busy = false ∧ [(1 : Byte)].length < 2 ^ 32 ∧
    ((inPhase .absorb 0 4).setTurns [.host (.fillKey [1])]).busy = true := by decide
/-- A key of `n` bytes, for `n` past the longest key the map can hold: `n = 2^32` is the shortest. -/
theorem witness_PlacedKeyReadsBack_tooLong (n : Nat) (hn : 2 ^ 32 ≤ n) :
    ∃ bytes : List Byte, (base.setTurns [.host (.fillKey bytes)]).turns = [.host (.fillKey bytes)] ∧
      (base.setTurns [.host (.fillKey bytes)]).busy = false ∧ 2 ^ 32 ≤ bytes.length :=
  ⟨List.replicate n 0, (rfl), (rfl), le_of_le_of_eq hn (List.length_replicate).symm⟩
theorem witness_EveryStepKeepsInv : base.inv ∧ faulted.inv ∧ after (step base) (fun _ => true) = true := by
  decide
theorem witness_EveryStepKeepsAssembledInv : base.assembledInv ∧ (inPhase .absorb 4 7).assembledInv ∧
    (inPhase .final 4 7).assembledInv ∧ ((inPhase .done 4 7).setValid true).assembledInv ∧
    after (step (inPhase .absorb 4 7)) (fun _ => true) = true := by decide
theorem witness_ErrIsSetAndClearedOnlySo :
    after (step (base.setTurns [.present 0x500000000])) (fun t => t.err) = true ∧ base.err = false ∧
    after (step (faulted.setTurns [.host .reset])) (fun t => !t.err) = true ∧
    after (step faulted) (fun _ => true) = true ∧ faulted.turns = [] := by decide
theorem witness_ResultAndValidChangeOnlySo :
    after (step (base.setTurns [.present 0x400000001])) (fun t => decide (t.result ≠ base.result)) = true ∧
    after (step ((inPhase .final 0 1))) (fun t => t.valid) = true ∧
    after (step ((base.setValid true).setTurns [.host (.start 5 0)])) (fun t => !t.valid) = true ∧
    (inPhase .final 0 1).turns = [] := by decide
theorem witness_PhaseAndLengthChangeOnlySo :
    after (step (base.setTurns [.host (.start 5 9)])) (fun t =>
      decide (t.phase ≠ base.phase ∧ t.lenr ≠ base.lenr)) = true ∧
    after (step (inPhase .absorb 0 0)) (fun t => decide (t.phase = .final)) = true ∧
    after (step (inPhase .final 0 0)) (fun t => decide (t.phase = .done)) = true := by decide
theorem witness_OnlyTheHostWritesTheKey :
    after (step (base.setTurns [.host (.fillKey [1])])) (fun t => decide (t.key ≠ base.key)) = true := by decide
theorem witness_DataNeverInfluenceControl : base.controlEq (keyed 5 [1]) ∧
    after (step base) (fun _ => true) = true := by decide
theorem witness_CounterIsFourTimesBlocks : base.err = false ∧
    [Instr.block, .tail3].all (fun i => !isInit i) = true ∧
    after (execAll (.init 7 :: [.block, .tail3]) base) (fun _ => true) = true := by decide
theorem witness_ResultStaysUntilTheNextStart : (inPhase .done 4 4).phase = .done ∧
    (inPhase .done 4 4).turns.all Turn.assembled = true ∧ after (step (inPhase .done 4 4)) (fun _ => true) = true ∧
    (inPhase .done 4 4).turns = [] := by decide
theorem witness_RunComputesMurmur : (base.setTurns [.host (.start 0 4)]).launch 0 4 ∧
    (base.setTurns [.host (.start 1 0)]).launch 1 0 := by decide
theorem witness_RunIsBusyUntilItsLastStep : (base.setTurns [.host (.start 0 4)]).launch 0 4 ∧ 1 ≤ 1 ∧
    3 < (4 : Word).toNat / 4 + 3 := by decide
theorem witness_DirectDriveComputesTheSame :
    (base.setTurns ((canonicalWords 0 4).map .present)).directLaunch 0 4 := by decide
theorem witness_CanonicalStreamReadsEachByteOnce : base.err = false := rfl
theorem witness_IndexedAndFoldedMurmurAgree : ([] : List Byte).length < 2 ^ 32 ∧
    [(1 : Byte), 2, 3, 4, 5].length < 2 ^ 32 := by decide
theorem witness_EverySeedChangesTheHash : (0 : Word) ≠ 0xFFFFFFFF := by decide
theorem witness_RunsAreDeterministic : (base.setTurns [.host (.start 0 4)]).launch 0 4 ∧
    ((base.setH 9).setTurns [.host (.start 0 4)]).launch 0 4 ∧
    (base.setTurns [.host (.start 0 4)]).key = ((base.setH 9).setTurns [.host (.start 0 4)]).key ∧
    after (runSteps ((4 : Word).toNat / 4 + 3) (base.setTurns [.host (.start 0 4)])) (fun t =>
      decide (t.result = 0xBA6BD213)) = true ∧
    after (runSteps ((4 : Word).toNat / 4 + 3) ((base.setH 9).setTurns [.host (.start 0 4)])) (fun t =>
      decide (t.result = 0xBA6BD213)) = true := by decide
theorem witness_TailIsAZeroFilledTruncatedBlock : base.err = false := rfl
theorem witness_AssemblerWords : (0xFFFFFFFF : Nat) < 2 ^ 32 ∧ (3 : Nat) < 4 ∧ (4 : Nat) ≥ 4 ∧
    (0x100000000 : Nat) ≥ 2 ^ 32 ∧ (0x7FFFFFFFF : Nat) < 2 ^ 35 ∧ (0x800000000 : Nat) ≥ 2 ^ 35 := by decide

end Sys2Proof.Tests
end

section
/-! ## The layer under the state family: what an operation, a presented word and a step do, said once -/

namespace Sys2Proof.Machine

/-! ### The encoder's words decode to their operations (R69) -/

theorem opField_opWord (op : BitVec 3) (arg : Word) : opField (opWord op arg) = op :=
  BitVec.extractLsb'_append_eq_left

theorem argField_opWord (op : BitVec 3) (arg : Word) : argField (opWord op arg) = arg :=
  BitVec.extractLsb'_append_eq_right

@[simp] theorem decode_encode (i : Instr) : decode (encode i) = .legal i := by
  cases i with
  | init _ | final _ => simp [encode, decode, opField_opWord, argField_opWord]
  | nop | block | tail0 | tail1 | tail2 | tail3 => decide

/-- The four values of `tailOf` (R63). -/
theorem tailOf_cases (n : BitVec 2) :
    tailOf n = .tail0 ∨ tailOf n = .tail1 ∨ tailOf n = .tail2 ∨ tailOf n = .tail3 := by
  revert n; decide

/-! ### The effect of an operation -/

/-- What an operation does to the state while `ERR = 0` (R100 to R130): the function `exec` puts behind the
guard of R163. -/
def opEffect (i : Instr) (s : State) : State :=
  match i with
  | .nop => s
  | .init seed => ((s.setH seed).setP 0).setValid false
  | .block => ((s.setH (blockMix s.h s.chunkWord)).setP (s.p + 4)).draw 1
  | .tail0 => s
  | .tail1 => (s.setH (tailMix s.h s.tailWord1)).draw 1
  | .tail2 => (s.setH (tailMix s.h s.tailWord2)).draw 1
  | .tail3 => (s.setH (tailMix s.h s.tailWord3)).draw 1
  | .final len => ((s.setH (finalMix s.h len)).setResult (finalMix s.h len)).setValid true

theorem exec_eq_datapath (i : Instr) (s : State) : exec i s = datapath (opEffect i) s := by
  cases i <;> rfl

theorem exec_of_err_clear {s : State} (i : Instr) (he : s.err = false) :
    exec i s = .next (opEffect i s) := by
  simp [exec_eq_datapath, datapath, he]

/-- A faulted state stays; otherwise the operation has its effect. -/
theorem exec_next {i : Instr} {s t : State} (h : exec i s = .next t) :
    (s.err = true ∧ t = s) ∨ (s.err = false ∧ t = opEffect i s) :=
  datapath_next (exec_eq_datapath i s ▸ h)

section
variable (i : Instr) (s : State)

@[simp] theorem opEffect_err : (opEffect i s).err = s.err := by cases i <;> simp [opEffect]
@[simp] theorem opEffect_ecause : (opEffect i s).ecause = s.ecause := by cases i <;> simp [opEffect]
@[simp] theorem opEffect_phase : (opEffect i s).phase = s.phase := by cases i <;> simp [opEffect]
@[simp] theorem opEffect_lenr : (opEffect i s).lenr = s.lenr := by cases i <;> simp [opEffect]
@[simp] theorem opEffect_key : (opEffect i s).key = s.key := by cases i <;> simp [opEffect]
@[simp] theorem opEffect_turns : (opEffect i s).turns = s.turns := by cases i <;> simp [opEffect]

@[simp] theorem opEffect_init_h (v : Word) : (opEffect (.init v) s).h = v := (rfl)
@[simp] theorem opEffect_init_p (v : Word) : (opEffect (.init v) s).p = 0 := (rfl)
@[simp] theorem opEffect_init_valid (v : Word) : (opEffect (.init v) s).valid = false := (rfl)
@[simp] theorem opEffect_final_h (v : Word) : (opEffect (.final v) s).h = finalMix s.h v := (rfl)
@[simp] theorem opEffect_final_result (v : Word) : (opEffect (.final v) s).result = finalMix s.h v := (rfl)
@[simp] theorem opEffect_final_valid (v : Word) : (opEffect (.final v) s).valid = true := (rfl)

end

/-- `RESULT` is written by `final` alone (R22). -/
theorem opEffect_result {i : Instr} (s : State) (hf : ∀ len, i ≠ .final len) :
    (opEffect i s).result = s.result := by
  cases i with
  | final len => exact absurd rfl (hf len)
  | _ => simp [opEffect]

/-- `VALID` is written by `init` and `final` alone (R23). -/
theorem opEffect_valid {i : Instr} (s : State) (hi : ∀ seed, i ≠ .init seed) (hf : ∀ len, i ≠ .final len) :
    (opEffect i s).valid = s.valid := by
  cases i with
  | init seed => exact absurd rfl (hi seed)
  | final len => exact absurd rfl (hf len)
  | _ => simp [opEffect]

/-- `P` moves by 4 at a `block` and by nothing else but `init` (R111, R120). -/
theorem opEffect_p {i : Instr} (s : State) (hi : ∀ seed, i ≠ .init seed) :
    (opEffect i s).p = if i = .block then s.p + 4 else s.p := by
  cases i with
  | init seed => exact absurd rfl (hi seed)
  | _ => simp [opEffect]

theorem toNat_add_four (p : Word) : (p + 4).toNat = (p.toNat + 4) % 2 ^ 32 := BitVec.toNat_add p 4

/-- Every operation keeps `P` a multiple of 4 (R37). -/
theorem opEffect_p_mod_four (i : Instr) {s : State} (h : s.p.toNat % 4 = 0) :
    (opEffect i s).p.toNat % 4 = 0 := by
  by_cases hi : ∃ seed, i = .init seed
  · obtain ⟨seed, rfl⟩ := hi
    simp
  · rw [opEffect_p s (not_exists.mp hi)]
    split
    · rw [toNat_add_four]
      omega
    · exact h

theorem tailOf_ne_init (n : BitVec 2) (seed : Word) : tailOf n ≠ .init seed := by
  rcases tailOf_cases n with h | h | h | h <;> simp [h]

theorem tailOf_ne_final (n : BitVec 2) (len : Word) : tailOf n ≠ .final len := by
  rcases tailOf_cases n with h | h | h | h <;> simp [h]

/-! ### The derived signals (R30) -/

theorem State.busy_iff (s : State) : s.busy = true ↔ s.phase = .absorb ∨ s.phase = .final := by
  simp [State.busy]

theorem State.busy_eq_false_iff (s : State) : s.busy = false ↔ s.phase = .idle ∨ s.phase = .done := by
  cases h : s.phase <;> simp [State.busy, h]

theorem State.ready_iff (s : State) : s.ready = true ↔ s.busy = false ∧ s.err = false := by
  simp [State.ready]

theorem State.validOut_iff (s : State) : s.validOut = true ↔ s.valid = true ∧ s.err = false := by
  simp [State.validOut]

/-- Where no turn is listed, none is dropped. -/
theorem State.setTurns_self (s : State) : s.setTurns s.turns = s := (rfl)

/-! ### One step -/

/-- What an issued operation does: its effect, and then the phase. -/
theorem issue_of_err_clear {s : State} (i : Instr) (ph : Phase) (he : s.err = false) :
    issue i ph s = .next ((opEffect i s).setPhase ph) := by
  simp [issue, presentWord, exec_of_err_clear i he]

theorem eq_of_issue {i : Instr} {ph : Phase} {s t : State} (he : s.err = false) (h : issue i ph s = .next t) :
    t = (opEffect i s).setPhase ph := by
  simpa [issue_of_err_clear i ph he] using h.symm

/-- A step takes the first listed turn. -/
theorem step_of_turns {s : State} {x : Turn} {rest : List Turn} (h : s.turns = x :: rest) :
    step s = takeTurn x (s.setTurns rest) := by
  simp [step, nextTurn, h]

/-- Every way a step leads on, with the guards of its rule. `s.turns.tail` are the turns left after it. -/
inductive StepMove (s : State) : State → Prop
  /-- The block rests (R147, R163), or ignores a `start` (R141) or, faulted, a word (R163). -/
  | stay : StepMove s (s.setTurns s.turns.tail)
  | reset {rest : List Turn} (hts : s.turns = .host .reset :: rest) :
      StepMove s (applyReset (s.setTurns s.turns.tail))
  | fillKey {bytes : List Byte} {rest : List Turn} (hts : s.turns = .host (.fillKey bytes) :: rest)
      (hb : s.busy = false) (hlen : bytes.length < 2 ^ 32) :
      StepMove s ((s.setTurns s.turns.tail).setKey (Memory.ofBytes bytes))
  | start {seed len : Word} {rest : List Turn} (hts : s.turns = .host (.start seed len) :: rest)
      (hr : s.ready = true) :
      StepMove s ((opEffect (.init seed) ((s.setTurns s.turns.tail).setLenr len)).setPhase .absorb)
  | present {w : OpWord} {i : Instr} {rest : List Turn} (hts : s.turns = .present w :: rest)
      (hw : decode w = .legal i) (he : s.err = false) :
      StepMove s (opEffect i (s.setTurns s.turns.tail))
  | illegal {w : OpWord} {c : Cause} {rest : List Turn} (hts : s.turns = .present w :: rest)
      (hw : decode w = .illegal c) (he : s.err = false) :
      StepMove s ((s.setTurns s.turns.tail).setFault c)
  | issueBlock (he : s.err = false) (hp : s.phase = .absorb) (hc : blockCount s.p ≠ blockCount s.lenr) :
      StepMove s ((opEffect .block (s.setTurns s.turns.tail)).setPhase .absorb)
  | issueTail (he : s.err = false) (hp : s.phase = .absorb) (hc : blockCount s.p = blockCount s.lenr) :
      StepMove s ((opEffect (tailOf (tailCount s.lenr)) (s.setTurns s.turns.tail)).setPhase .final)
  | issueFinal (he : s.err = false) (hp : s.phase = .final) :
      StepMove s ((opEffect (.final s.lenr) (s.setTurns s.turns.tail)).setPhase .done)

/-- The block's turn, taken with the turns after it still listed. -/
theorem StepMove.of_blockTurn {s t : State} (h : blockTurn (s.setTurns s.turns.tail) = .next t) :
    StepMove s t := by
  rcases blockTurn_next h with ⟨_, rfl⟩ | ⟨he, hb, h⟩ | ⟨he, hb, h⟩ | ⟨he, hb, h⟩ | ⟨_, _, rfl⟩
  · exact .stay
  · obtain rfl := eq_of_issue he h
    simp only [State.blockEnabled, Bool.and_eq_true, decide_eq_true_eq] at hb
    exact .issueBlock he hb.1 hb.2
  · obtain rfl := eq_of_issue he h
    simp only [State.tailEnabled, Bool.and_eq_true, decide_eq_true_eq] at hb
    exact .issueTail he hb.1 hb.2
  · obtain rfl := eq_of_issue he h
    exact .issueFinal he (by simpa [State.finalEnabled] using hb)
  · exact .stay

/-- A presented `start`, taken with the turns after it still listed. -/
theorem StepMove.of_startMove {s t : State} {seed len : Word} {rest : List Turn}
    (hts : s.turns = .host (.start seed len) :: rest)
    (h : startMove seed len (s.setTurns s.turns.tail) = .next t) : StepMove s t := by
  rcases startMove_next h with ⟨hr, h⟩ | ⟨_, rfl⟩
  · have he : s.err = false := ((State.ready_iff _).mp hr).2
    obtain rfl := eq_of_issue (by simpa using he) h
    exact .start hts hr
  · exact .stay

/-- A presented word, taken with the turns after it still listed. -/
theorem StepMove.of_presentWord {s t : State} {w : OpWord} {rest : List Turn}
    (hts : s.turns = .present w :: rest)
    (h : presentWord w (s.setTurns s.turns.tail) = .next t) : StepMove s t := by
  rcases presentWord_next h with ⟨i, hw, h⟩ | ⟨c, hw, rfl⟩
  · rcases exec_next h with ⟨_, rfl⟩ | ⟨he, rfl⟩
    · exact .stay
    · exact .present hts hw he
  · rcases raiseIllegalOp_cases c (s.setTurns s.turns.tail) with ⟨_, h⟩ | ⟨he, h⟩
    · rw [h]; exact .stay
    · rw [h]; exact .illegal hts hw he

/-- Every step is one of these moves. -/
theorem stepMove_of_step {s t : State} (h : step s = .next t) : StepMove s t := by
  rcases step_next h with ⟨hts, h⟩ | ⟨rest, hts, h⟩ | ⟨rest, hts, rfl⟩ | ⟨seed, len, rest, hts, h⟩ |
    ⟨bytes, rest, hts, h⟩ | ⟨w, rest, hts, h⟩
  · exact .of_blockTurn (by rwa [hts, List.tail_nil, ← hts, s.setTurns_self])
  · exact .of_blockTurn (by rwa [hts])
  · have hm := StepMove.reset hts
    rwa [hts] at hm
  · exact .of_startMove hts (by rwa [hts])
  · obtain ⟨hb, hlen, rfl, -⟩ := fillKeyMove_next h
    have hm := StepMove.fillKey hts hb hlen
    rwa [hts] at hm
  · exact .of_presentWord hts (by rwa [hts])

end Sys2Proof.Machine

/-! ## O31, O32: the machine's invariant -/

namespace Sys2Proof.Machine

theorem State.inv_setTurns {s : State} (h : s.inv) (ts : List Turn) : (s.setTurns ts).inv := h

/-- Reset leaves the key memory and is back in `IDLE` without a fault. -/
theorem applyReset_inv {s : State} (h : s.inv) : (applyReset s).inv := by
  obtain ⟨hkey, -, -⟩ := h
  exact ⟨hkey, by simp, by simp⟩

theorem State.inv_setKey {s : State} (h : s.inv) {m : List Host.Cell} (hm : Memory.wf m = true) :
    (s.setKey m).inv := by
  obtain ⟨-, hcause, hp⟩ := h
  exact ⟨hm, hcause, hp⟩

theorem State.inv_setFault {s : State} (h : s.inv) (c : Cause) : (s.setFault c).inv := by
  obtain ⟨hkey, -, hp⟩ := h
  exact ⟨hkey, by simp, hp⟩

/-- A running computation may move to any phase. -/
theorem State.inv_setPhase {s : State} (h : s.inv) (hph : s.phase ≠ .idle) (ph : Phase) :
    (s.setPhase ph).inv := by
  obtain ⟨hkey, hcause, hp⟩ := h
  exact ⟨hkey, hcause, fun _ => hp hph⟩

theorem opEffect_inv (i : Instr) {s : State} (h : s.inv) : (opEffect i s).inv := by
  obtain ⟨hkey, hcause, hp⟩ := h
  exact ⟨by simpa using hkey, by simpa using hcause,
    fun hph => opEffect_p_mod_four i (hp (by simpa using hph))⟩

/-- An accepted `START` enters `ABSORB` with `P = 0`. -/
theorem acceptedStart_inv {s : State} (h : s.inv) (seed len : Word) :
    ((opEffect (.init seed) (s.setLenr len)).setPhase .absorb).inv := by
  obtain ⟨hkey, hcause, -⟩ := h
  exact ⟨by simpa using hkey, by simpa using hcause, by simp⟩

theorem issued_inv (i : Instr) {s : State} (h : s.inv) (hph : s.phase ≠ .idle) (ph : Phase) :
    ((opEffect i s).setPhase ph).inv :=
  State.inv_setPhase (opEffect_inv i h) (by simpa using hph) ph

theorem StepMove.inv {s t : State} (hm : StepMove s t) (h : s.inv) : t.inv := by
  have hu : (s.setTurns s.turns.tail).inv := State.inv_setTurns h _
  cases hm with
  | stay => exact hu
  | reset => exact applyReset_inv hu
  | fillKey _ _ hlen => exact State.inv_setKey hu (Memory.ofBytes_wf hlen)
  | start => exact acceptedStart_inv hu _ _
  | present => exact opEffect_inv _ hu
  | illegal => exact State.inv_setFault hu _
  | issueBlock _ hp | issueTail _ hp | issueFinal _ hp => exact issued_inv _ hu (by simp [hp]) _

/-- Settles O31: each move of a step keeps the invariant. -/
theorem everyStepKeepsInv : Obligations.EveryStepKeepsInv := by
  intro s t h hstep
  exact (stepMove_of_step hstep).inv h

/-- Settles O32. -/
theorem invAtReset : Obligations.InvAtReset :=
  ⟨State.reset_key_wf, by simp [State.reset], by simp [State.reset]⟩

/-! ## O34, O23, O30: the state after reset and the derived signals -/

/-- Settles O34: in `IDLE` only the flags matter. -/
theorem assembledInvAtReset : Obligations.AssembledInvAtReset := by
  simp [Obligations.AssembledInvAtReset, State.assembledInv, State.reset]

/-- Settles O23. -/
theorem resetStateHasTheSpecsValues : Obligations.ResetStateHasTheSpecsValues := by
  unfold Obligations.ResetStateHasTheSpecsValues
  decide

/-- The fields of a byte put together as R31 puts `STATUS` together. -/
theorem statusFields (ph ec : BitVec 2) (e b v : Bool) :
    let st : BitVec 8 := 0#1 ++ ph ++ ec ++ BitVec.ofBool e ++ BitVec.ofBool b ++ BitVec.ofBool v
    st.getLsbD 0 = v ∧ st.getLsbD 1 = b ∧ st.getLsbD 2 = e ∧ st.extractLsb' 3 2 = ec ∧
      st.extractLsb' 5 2 = ph ∧ st.getLsbD 7 = false := by
  revert ph ec e b v; decide

/-- Settles O30: each signal by its definition, the places of `STATUS` by `statusFields`. -/
theorem statusVectorBits : Obligations.StatusVectorBits := by
  intro s
  obtain ⟨hv, hb, he, hec, hph, h7⟩ :=
    statusFields (phaseCode s.phase) (ecauseCode s.ecause) s.err s.busy s.valid
  exact ⟨s.busy_iff, s.ready_iff, s.validOut_iff, hv, hb, he, hec, hph, h7, rfl⟩

/-! ## O19: the frame of the operations -/

/-- Settles O19: a faulted state stays as it is, and otherwise each register is framed by `opEffect`'s lemma. -/
theorem operationsWriteOnlyTheirColumn : Obligations.OperationsWriteOnlyTheirColumn := by
  intro i s t h
  rcases exec_next h with ⟨-, rfl⟩ | ⟨-, rfl⟩
  · simp
  · refine ⟨by simp, by simp, by simp, by simp, by simp, by simp, opEffect_result s, opEffect_valid s,
      fun hi hb => by rw [opEffect_p s hi, if_neg hb], ?_⟩
    rintro (rfl | rfl) <;> rfl

/-! ## O35: `ERR` -/

/-- A step from `ERR = 0` into `ERR = 1` took an illegal word and keeps its cause. -/
theorem StepMove.illegal_of_err {s t : State} (hm : StepMove s t) (hs : s.err = false) (ht : t.err = true) :
    ∃ (w : OpWord) (c : Cause) (rest : List Turn),
      s.turns = .present w :: rest ∧ decode w = .illegal c ∧ t.ecause = some c := by
  cases hm with
  | illegal hts hw => exact ⟨_, _, _, hts, hw, by simp⟩
  | _ => simp [hs] at ht

/-- While `ERR = 1` only a reset writes the datapath or the fault (R163, R168). -/
theorem StepMove.frame_of_err {s t : State} (hm : StepMove s t) (hs : s.err = true)
    (hnr : ∀ rest, s.turns ≠ .host .reset :: rest) :
    t.h = s.h ∧ t.p = s.p ∧ t.result = s.result ∧ t.valid = s.valid ∧ t.ecause = s.ecause ∧ t.err = true := by
  cases hm with
  | stay | fillKey => simp [hs]
  | reset hts => exact absurd hts (hnr _)
  | start _ hr => simp [s.ready_iff, hs] at hr
  | present _ _ he | illegal _ _ he | issueBlock he | issueTail he | issueFinal he => simp [hs] at he

/-- A presented illegal word raises its fault (R161). -/
theorem step_of_illegal {s : State} {w : OpWord} {c : Cause} {rest : List Turn} (hs : s.err = false)
    (hts : s.turns = .present w :: rest) (hw : decode w = .illegal c) :
    step s = .next ((s.setTurns rest).setFault c) := by
  simp [step_of_turns hts, takeTurn, presentWord, hw, raiseIllegalOp, hs]

theorem step_of_reset {s : State} {rest : List Turn} (hts : s.turns = .host .reset :: rest) :
    step s = .next (applyReset (s.setTurns rest)) := by
  simp [step_of_turns hts, takeTurn, hostMove]

theorem canonicalWords_legal {seed len : Word} {w : OpWord} (hw : w ∈ canonicalWords seed len) (c : Cause) :
    decode w ≠ .illegal c := by
  obtain ⟨i, -, rfl⟩ := List.mem_map.mp hw
  simp

/-- Settles O35: the step's moves give what a change of `ERR` says of the turn, the step on that turn the
converse. -/
theorem errIsSetAndClearedOnlySo : Obligations.ErrIsSetAndClearedOnlySo := by
  refine ⟨fun s t h => ⟨fun hs => ⟨fun ht => ?_, ?_⟩, fun hs => ⟨fun ht => ?_, ?_⟩, fun hs hnr => ?_⟩, rfl,
    fun _ _ _ hw c => canonicalWords_legal hw c⟩
  · exact (stepMove_of_step h).illegal_of_err hs ht
  · rintro ⟨w, c, rest, hts, hw, -⟩
    cases (step_of_illegal hs hts hw).symm.trans h
    rfl
  · by_contra hnr
    obtain ⟨-, -, -, -, -, he⟩ := (stepMove_of_step h).frame_of_err hs (not_exists.mp hnr)
    simp [he] at ht
  · rintro ⟨rest, hts⟩
    cases (step_of_reset hts).symm.trans h
    rfl
  · obtain ⟨hh, hp, hr, hv, hc, -⟩ := (stepMove_of_step h).frame_of_err hs hnr
    exact ⟨hh, hp, hr, hv, hc⟩

/-! ## O36: `RESULT` and `VALID` -/

/-- An operation that is neither `init` nor `final` writes neither `RESULT` nor `VALID`. -/
theorem opEffect_result_valid_cases (i : Instr) (s : State) :
    (∃ seed, i = .init seed) ∨ (∃ len, i = .final len) ∨
      ((opEffect i s).result = s.result ∧ (opEffect i s).valid = s.valid) := by
  by_cases hi : ∃ seed, i = .init seed
  · exact .inl hi
  · by_cases hf : ∃ len, i = .final len
    · exact .inr (.inl hf)
    · have hf' := not_exists.mp hf
      exact .inr (.inr ⟨opEffect_result s hf', opEffect_valid s (not_exists.mp hi) hf'⟩)

/-- `final len` was presented, or the sequencer issued it. -/
def State.takesFinal (s : State) (len : Word) : Prop :=
  (∃ w rest, s.turns = .present w :: rest ∧ decode w = .legal (.final len)) ∨ (s.phase = .final ∧ s.lenr = len)

/-- `init seed` was presented, or a `START` with that seed accepted. -/
def State.takesInit (s : State) (seed : Word) : Prop :=
  (∃ w rest, s.turns = .present w :: rest ∧ decode w = .legal (.init seed)) ∨
    (s.ready = true ∧ ∃ len rest, s.turns = .host (.start seed len) :: rest)

/-- What a step that is no reset does to `RESULT` and `VALID`: nothing, or what its `final` or its `init`
does (R22, R23). -/
theorem StepMove.result_valid {s t : State} (hm : StepMove s t)
    (hnr : ∀ rest, s.turns ≠ .host .reset :: rest) :
    (t.result = s.result ∧ t.valid = s.valid) ∨
      (∃ len, s.takesFinal len ∧ t.result = finalMix s.h len ∧ t.h = t.result ∧ t.valid = true) ∨
      (s.takesInit t.h ∧ t.result = s.result ∧ t.p = 0 ∧ t.valid = false) := by
  cases hm with
  | stay | fillKey | illegal => exact .inl (by simp)
  | reset hts => exact absurd hts (hnr _)
  | start hts hr => exact .inr (.inr ⟨.inr ⟨hr, _, _, hts⟩, opEffect_result _ (by simp), rfl, rfl⟩)
  | @present w i rest hts hw =>
    rcases opEffect_result_valid_cases i (s.setTurns s.turns.tail) with ⟨seed, rfl⟩ | ⟨len, rfl⟩ | h
    · exact .inr (.inr ⟨.inl ⟨w, rest, hts, hw⟩, opEffect_result _ (by simp), rfl, rfl⟩)
    · exact .inr (.inl ⟨len, .inl ⟨w, rest, hts, hw⟩, rfl, rfl, rfl⟩)
    · exact .inl h
  | issueBlock => exact .inl (by simp [opEffect_result, opEffect_valid])
  | issueTail => exact .inl (by simp [opEffect_result, opEffect_valid, tailOf_ne_init, tailOf_ne_final])
  | issueFinal _ hp => exact .inr (.inl ⟨_, .inr ⟨hp, rfl⟩, rfl, rfl, rfl⟩)

/-- Settles O36, from the three cases of `StepMove.result_valid`. -/
theorem resultAndValidChangeOnlySo : Obligations.ResultAndValidChangeOnlySo := by
  intro s t h hnr
  rcases (stepMove_of_step h).result_valid hnr with ⟨hr, hv⟩ | ⟨len, hfin, hr, hh, hv⟩ | ⟨hini, hr, hp, hv⟩
  · simp [hr, hv]
  · exact ⟨fun _ => ⟨hv, hh, len, hr, hfin⟩, by simp [hv]⟩
  · exact ⟨by simp [hr, hv], fun _ => ⟨hr, hp, hini⟩⟩

/-! ## O37: `PHASE` and `LENR` -/

/-- An accepted `START` finds the block waiting and without a fault. -/
theorem State.waits_of_ready {s : State} (h : s.ready = true) :
    (s.phase = .idle ∨ s.phase = .done) ∧ s.err = false := by
  rwa [s.ready_iff, s.busy_eq_false_iff] at h

/-- What a step that is no reset does to `PHASE` and `LENR` (R141 to R144). -/
theorem StepMove.phase_lenr {s t : State} (hm : StepMove s t)
    (hnr : ∀ rest, s.turns ≠ .host .reset :: rest) :
    (s.ready = true ∧ t.phase = .absorb ∧ ∃ seed rest, s.turns = .host (.start seed t.lenr) :: rest) ∨
      (t.lenr = s.lenr ∧ (t.phase = s.phase ∨ (s.phase = .absorb ∧ t.phase = .final) ∨
        (s.phase = .final ∧ t.phase = .done ∧ t.valid = true))) := by
  cases hm with
  | stay | fillKey | present | illegal => exact .inr (by simp)
  | reset hts => exact absurd hts (hnr _)
  | start hts hr => exact .inl ⟨hr, rfl, _, _, by simpa using hts⟩
  | issueBlock _ hp | issueTail _ hp | issueFinal _ hp => exact .inr (by simp [hp])

/-- Settles O37, from the two cases of `StepMove.phase_lenr`. -/
theorem phaseAndLengthChangeOnlySo : Obligations.PhaseAndLengthChangeOnlySo := by
  intro s t h hnr
  rcases (stepMove_of_step h).phase_lenr hnr with ⟨hr, hph, hts⟩ | ⟨hl, hph⟩
  · obtain ⟨hw, he⟩ := State.waits_of_ready hr
    exact ⟨fun _ => .inl ⟨hw, hph, he, hts⟩, fun _ => ⟨hr, hts⟩⟩
  · exact ⟨fun hne => .inr (hph.resolve_left hne), fun hne => absurd hl hne⟩

/-! ## O41: `P` counts the blocks -/

theorem execAll_cons {i : Instr} {s : State} (is : List Instr) (hs : s.err = false) :
    execAll (i :: is) s = execAll is (opEffect i s) := by
  simp [execAll, exec_of_err_clear i hs]

/-- Without an `init`, `P` goes up by 4 for each `block` (R111, R37). -/
theorem execAll_p {is : List Instr} {s t : State} (hs : s.err = false)
    (hi : is.all (fun i => !isInit i) = true) (h : execAll is s = .next t) :
    t.p.toNat = (s.p.toNat + 4 * is.count .block) % 2 ^ 32 := by
  induction is generalizing s with
  | nil =>
    cases h
    simpa using (Nat.mod_eq_of_lt t.p.isLt).symm
  | cons i is ih =>
    simp only [List.all_cons, Bool.and_eq_true] at hi
    obtain ⟨hi, his⟩ := hi
    have hni : ∀ seed, i ≠ .init seed := by
      rintro seed rfl
      simp [isInit] at hi
    rw [execAll_cons is hs] at h
    rw [ih (by simpa using hs) his h, opEffect_p s hni, List.count_cons]
    by_cases hb : i = .block
    · simp only [hb, if_true, beq_self_eq_true, toNat_add_four]
      omega
    · simp [hb]

/-- Settles O41: `init` sets `P` to 0, and from there `execAll_p` counts. -/
theorem counterIsFourTimesBlocks : Obligations.CounterIsFourTimesBlocks := by
  intro seed is s t hs hi h
  rw [execAll_cons is hs] at h
  have hp := execAll_p (by simpa using hs) hi h
  rw [opEffect_init_p, show (0 : Word).toNat = 0 from rfl, Nat.zero_add] at hp
  exact ⟨hp, by omega⟩

end Sys2Proof.Machine
end

section
/-! ## The memory family: what an operation reads, what a placed key reads as, and who writes the key -/

namespace Sys2Proof.Machine

/-! ### O20: an operation reads its bytes and no others -/

/-- The bytes an operation reads while `ERR = 0` stand in a row from `P` on (R44). -/
theorem keyReads_of_err_clear {s : State} (i : Instr) (hs : s.err = false) :
    keyReads i s = List.range' s.p.toNat (readCount i) := by
  simp [keyReads, hs, List.range'_eq_map_range, State.keyAddr]

theorem mem_keyReads {s : State} {i : Instr} (hs : s.err = false) {j : Nat} (hj : j < readCount i) :
    s.keyAddr j ∈ keyReads i s := by
  rw [keyReads_of_err_clear i hs, List.mem_range'_1, State.keyAddr]
  omega

/-- A byte read depends on the key memory only through the lookup at its address (R41). -/
theorem State.keyByte_setKey {s : State} {m : List Host.Cell} {j : Nat}
    (h : Memory.lookup m (s.keyAddr j) = Memory.lookup s.key (s.keyAddr j)) :
    (s.setKey m).keyByte j = s.keyByte j := by
  have ha : (s.setKey m).keyAddr j = s.keyAddr j := rfl
  simp only [State.keyByte, State.memRead, ha, State.setKey_key, State.setKey_draws, h]

section
/-! The placing of a key commutes with the operations' other writes. -/

variable (s : State) (m : List Host.Cell)

@[simp] theorem State.setKey_setH (v : Word) : (s.setKey m).setH v = (s.setH v).setKey m := (rfl)
@[simp] theorem State.setKey_setP (v : Word) : (s.setKey m).setP v = (s.setP v).setKey m := (rfl)
@[simp] theorem State.setKey_setResult (v : Word) : (s.setKey m).setResult v = (s.setResult v).setKey m := (rfl)
@[simp] theorem State.setKey_setValid (v : Bool) : (s.setKey m).setValid v = (s.setValid v).setKey m := (rfl)
@[simp] theorem State.setKey_setFault (c : Cause) : (s.setKey m).setFault c = (s.setFault c).setKey m := (rfl)
@[simp] theorem State.setKey_draw (n : Nat) : (s.setKey m).draw n = (s.draw n).setKey m := (rfl)

end

/-- On a key memory with the same bytes where the operation reads, it has the same effect. -/
theorem opEffect_setKey {i : Instr} {s : State} {m : List Host.Cell}
    (h : ∀ j < readCount i, (s.setKey m).keyByte j = s.keyByte j) :
    opEffect i (s.setKey m) = (opEffect i s).setKey m := by
  cases i with
  | nop | tail0 => rfl
  | init seed | final len => simp [opEffect]
  | block =>
    have hk : (s.setKey m).chunkWord = s.chunkWord := by
      simp only [State.chunkWord, h 0 (by decide), h 1 (by decide), h 2 (by decide), h 3 (by decide)]
    simp [opEffect, hk]
  | tail1 =>
    have hk : (s.setKey m).tailWord1 = s.tailWord1 := by
      simp only [State.tailWord1, h 0 (by decide)]
    simp [opEffect, hk]
  | tail2 =>
    have hk : (s.setKey m).tailWord2 = s.tailWord2 := by
      simp only [State.tailWord2, h 0 (by decide), h 1 (by decide)]
    simp [opEffect, hk]
  | tail3 =>
    have hk : (s.setKey m).tailWord3 = s.tailWord3 := by
      simp only [State.tailWord3, h 0 (by decide), h 1 (by decide), h 2 (by decide)]
    simp [opEffect, hk]

theorem exec_of_err {s : State} (i : Instr) (he : s.err = true) : exec i s = .next s := by
  simp [exec_eq_datapath, datapath, he]

/-- The outcome of an operation on another key memory that agrees where the operation reads. -/
theorem exec_setKey {i : Instr} {s t : State} {m : List Host.Cell}
    (hm : ∀ a ∈ keyReads i s, Memory.lookup m a = Memory.lookup s.key a) (h : exec i s = .next t) :
    exec i (s.setKey m) = .next (t.setKey m) := by
  rcases exec_next h with ⟨he, rfl⟩ | ⟨he, rfl⟩
  · exact exec_of_err i he
  · rw [exec_of_err_clear i (show (s.setKey m).err = false from he),
      opEffect_setKey fun j hj => State.keyByte_setKey (hm _ (mem_keyReads he hj))]

/-- An illegal word looks at no byte of the key. -/
theorem raiseIllegalOp_setKey (c : Cause) (s : State) (m : List Host.Cell) :
    raiseIllegalOp c (s.setKey m) = (raiseIllegalOp c s).setKey m := by
  cases he : s.err <;> simp [raiseIllegalOp, he]

theorem presentWord_of_illegal {w : OpWord} {c : Cause} (s : State) (hw : decode w = .illegal c) :
    presentWord w s = .next (raiseIllegalOp c s) := by
  simp [presentWord, hw]

/-- Settles O20: `exec_setKey` for the operations, `keyReads_of_err_clear` for the addresses. -/
theorem operationsReadOnlyTheirBytes : Obligations.OperationsReadOnlyTheirBytes := by
  refine ⟨fun _ _ _ _ => exec_setKey, fun s hs => ?_, fun w c s m hw => ?_⟩
  · simp [keyReads_of_err_clear _ hs, readCount, List.range'_succ]
  · refine ⟨_, presentWord_of_illegal s hw, ?_⟩
    rw [presentWord_of_illegal _ hw, raiseIllegalOp_setKey]

/-! ### O29: a placed key reads back -/

/-- The memory a placing leaves holds the bytes placed (R40). -/
theorem Memory.bytes_ofBytesFrom (bytes : List Byte) (a : Nat) :
    Memory.bytes (Memory.ofBytesFrom a bytes) = bytes := by
  induction bytes generalizing a with
  | nil => rfl
  | cons b bs ih => simpa [Memory.ofBytesFrom, Memory.bytes] using ih (a + 1)

@[simp] theorem State.klen_setKey_ofBytes (s : State) (bytes : List Byte) :
    (s.setKey (Memory.ofBytes bytes)).klen = bytes.length := by
  simp [State.klen, Memory.ofBytes]

/-- `MemRead` on a placed key (R41). -/
theorem State.memRead_setKey_ofBytes (s : State) {bytes : List Byte} (hlen : bytes.length < 2 ^ 32) {i : Nat}
    (hi : i < bytes.length) : (s.setKey (Memory.ofBytes bytes)).memRead i = bytes[i] := by
  rw [State.memRead_of_lt (by simpa using Memory.ofBytes_wf hlen) (by simpa using hi), State.setKey_key,
    Memory.ofBytes, Memory.bytes_ofBytesFrom, List.getD_eq_getElem _ _ hi]

/-- A step whose turn is the host's placing of a key. -/
theorem step_of_fillKey {s : State} {bytes : List Byte} {rest : List Turn}
    (hts : s.turns = .host (.fillKey bytes) :: rest) :
    step s = if s.busy then .refused .keyWriteWhileBusy
      else if bytes.length < 2 ^ 32 then .next ((s.setTurns rest).setKey (Memory.ofBytes bytes))
      else .fault .keyTooLong :=
  step_of_turns hts

/-- Settles O29: the three branches of `step_of_fillKey`, the first read by `State.memRead_setKey_ofBytes`. -/
theorem placedKeyReadsBack : Obligations.PlacedKeyReadsBack := by
  intro s bytes rest hts
  rw [step_of_fillKey hts]
  refine ⟨fun hb hlen => ?_, fun hb => by simp [hb], fun hb hlen => by simpa [hb] using hlen⟩
  refine ⟨(s.setTurns rest).setKey (Memory.ofBytes bytes), by simpa [hb] using hlen, by simp, fun i hi => ?_, rfl⟩
  exact State.memRead_setKey_ofBytes _ hlen hi

/-! ### O38: only the host writes the key memory -/

/-- Every move of a step but the placing of a key leaves the key memory (R46). -/
theorem StepMove.key {s t : State} (hm : StepMove s t) :
    t.key = s.key ∨ (s.busy = false ∧ ∃ bytes rest, s.turns = .host (.fillKey bytes) :: rest) := by
  cases hm with
  | fillKey hts hb => exact .inr ⟨hb, _, _, hts⟩
  | _ => exact .inl (by simp)

/-- Settles O38, from `StepMove.key`. -/
theorem onlyTheHostWritesTheKey : Obligations.OnlyTheHostWritesTheKey :=
  fun _ _ h hne => (stepMove_of_step h).key.resolve_left hne

/-! ### O46: the canonical stream reads each key byte once -/

theorem readTrace_cons {s : State} (i : Instr) (is : List Instr) (hs : s.err = false) :
    readTrace (i :: is) s = List.range' s.p.toNat (readCount i) ++ readTrace is (opEffect i s) := by
  simp [readTrace, exec_of_err_clear i hs, keyReads_of_err_clear i hs]

/-- `tail n` reads `n` bytes (R44). -/
theorem readCount_tailOf (n : BitVec 2) : readCount (tailOf n) = n.toNat := by
  revert n; decide

theorem toNat_tailCount (v : Word) : (tailCount v).toNat = v.toNat % 4 := by
  simp [tailCount, BitVec.extractLsb'_toNat]

/-- Blocks, a tail and `final` read on from `P`, as long as `P` does not wrap. -/
theorem readTrace_blocks_tail_final {s : State} (n : Nat) (c : BitVec 2) (len : Word) (hs : s.err = false)
    (hp : s.p.toNat + 4 * n < 2 ^ 32) :
    readTrace (List.replicate n .block ++ [tailOf c, .final len]) s =
      List.range' s.p.toNat (4 * n + c.toNat) := by
  induction n generalizing s with
  | zero =>
    have ht : (opEffect (tailOf c) s).err = false := by simpa using hs
    rw [List.replicate_zero, List.nil_append, readTrace_cons _ _ hs, readTrace_cons _ _ ht, readCount_tailOf]
    simp [readCount, readTrace]
  | succ n ih =>
    have hp4 : (opEffect .block s).p.toNat = s.p.toNat + 4 := by
      rw [opEffect_p s (by simp), if_pos rfl, toNat_add_four, Nat.mod_eq_of_lt (by omega)]
    rw [List.replicate_succ, List.cons_append, readTrace_cons _ _ hs,
      ih (by simpa using hs) (by omega), hp4, readCount, List.range'_append_1]
    congr 1
    omega

/-- Settles O46: `init` reads nothing and sets `P` to 0, and from there the blocks and the tail read on. -/
theorem canonicalStreamReadsEachByteOnce : Obligations.CanonicalStreamReadsEachByteOnce := by
  intro s seed len hs
  have hlen := len.isLt
  have hp : (opEffect (.init seed) s).p.toNat = 0 := by simp
  rw [canonicalStream, readTrace_cons _ _ hs,
    readTrace_blocks_tail_final _ _ _ (by simpa using hs) (by omega), hp, toNat_tailCount,
    Nat.div_add_mod, List.range_eq_range']
  rfl

end Sys2Proof.Machine
end

section
/-! ## The encoding family: the decoder on numbers, its inverse, the opcode table and the assembler -/

namespace Sys2Proof.Machine

/-! ### The fields of a word as numbers (R61) -/

theorem toNat_opField (w : OpWord) : (opField w).toNat = w.toNat / 2 ^ 32 := by
  have hw := w.isLt
  simp only [opField, BitVec.extractLsb'_toNat, Nat.shiftRight_eq_div_pow]
  omega

theorem toNat_argField (w : OpWord) : (argField w).toNat = w.toNat % 2 ^ 32 := by
  simp [argField, BitVec.extractLsb'_toNat]

theorem argField_eq_ofNat (w : OpWord) : argField w = BitVec.ofNat 32 (w.toNat % 2 ^ 32) := by
  rw [← toNat_argField, BitVec.ofNat_toNat, BitVec.setWidth_eq]

theorem argField_eq_zero_iff (w : OpWord) : argField w = 0 ↔ w.toNat % 2 ^ 32 = 0 := by
  rw [← toNat_argField, ← BitVec.toNat_inj]
  rfl

/-- The must-be-zero bits of `tail`, `arg[31:2]` (R64). -/
theorem argField_high_eq_zero_iff (w : OpWord) :
    (argField w).extractLsb' 2 30 = 0 ↔ w.toNat % 2 ^ 32 < 4 := by
  have ha := (argField w).isLt
  have h0 : (0 : BitVec 30).toNat = 0 := rfl
  rw [← toNat_argField, ← BitVec.toNat_inj, BitVec.extractLsb'_toNat, Nat.shiftRight_eq_div_pow, h0]
  omega

theorem argField_low (w : OpWord) :
    (argField w).extractLsb' 0 2 = BitVec.ofNat 2 (w.toNat % 2 ^ 32) := by
  rw [← toNat_argField]
  rfl

theorem toNat_opWord (op : BitVec 3) (arg : Word) : (opWord op arg).toNat = op.toNat * 2 ^ 32 + arg.toNat := by
  rw [opWord, BitVec.toNat_append, ← Nat.shiftLeft_add_eq_or_of_lt arg.isLt, Nat.shiftLeft_eq]

theorem opWord_opField_argField (w : OpWord) : opWord (opField w) (argField w) = w := by
  apply BitVec.eq_of_toNat_eq
  rw [toNat_opWord, toNat_opField, toNat_argField, Nat.div_add_mod']

/-- The rows of the opcode map: one for each defined opcode, and the reserved ones together. -/
theorem opcode_cases (w : OpWord) :
    w.toNat / 2 ^ 32 = 0 ∨ w.toNat / 2 ^ 32 = 1 ∨ w.toNat / 2 ^ 32 = 2 ∨ w.toNat / 2 ^ 32 = 3 ∨
      w.toNat / 2 ^ 32 = 4 ∨ 5 ≤ w.toNat / 2 ^ 32 := by omega

/-! ### The decoder, one equation for each row of the opcode map (R62, R64) -/

section
variable {w : OpWord}

theorem decode_of_op_zero (h : w.toNat / 2 ^ 32 = 0) :
    decode w = if w.toNat % 2 ^ 32 = 0 then .legal .nop else .illegal .reservedBits := by
  simp only [decode, toNat_opField, h, argField_eq_zero_iff]

theorem decode_of_op_one (h : w.toNat / 2 ^ 32 = 1) :
    decode w = .legal (.init (BitVec.ofNat 32 (w.toNat % 2 ^ 32))) := by
  simp only [decode, toNat_opField, h, argField_eq_ofNat]

theorem decode_of_op_two (h : w.toNat / 2 ^ 32 = 2) :
    decode w = if w.toNat % 2 ^ 32 = 0 then .legal .block else .illegal .reservedBits := by
  simp only [decode, toNat_opField, h, argField_eq_zero_iff]

theorem decode_of_op_three (h : w.toNat / 2 ^ 32 = 3) :
    decode w = if w.toNat % 2 ^ 32 < 4 then .legal (tailOf (BitVec.ofNat 2 (w.toNat % 2 ^ 32)))
      else .illegal .reservedBits := by
  simp only [decode, toNat_opField, h, argField_high_eq_zero_iff, argField_low]

theorem decode_of_op_four (h : w.toNat / 2 ^ 32 = 4) :
    decode w = .legal (.final (BitVec.ofNat 32 (w.toNat % 2 ^ 32))) := by
  simp only [decode, toNat_opField, h, argField_eq_ofNat]

theorem decode_of_op_ge_five (h : 5 ≤ w.toNat / 2 ^ 32) : decode w = .illegal .reservedOpcode := by
  have hw := w.isLt
  obtain h | h | h : w.toNat / 2 ^ 32 = 5 ∨ w.toNat / 2 ^ 32 = 6 ∨ w.toNat / 2 ^ 32 = 7 := by omega
  all_goals simp only [decode, toNat_opField, h]

end

/-! ### The encoder as a number, and that it inverts the decoder -/

theorem opWord_eq_ofNat (op : BitVec 3) (arg : Word) :
    opWord op arg = BitVec.ofNat 35 (op.toNat * 2 ^ 32 + arg.toNat) := by
  rw [← toNat_opWord, BitVec.ofNat_toNat, BitVec.setWidth_eq]

theorem encode_init (v : Word) : encode (.init v) = BitVec.ofNat 35 (0x100000000 + v.toNat) :=
  opWord_eq_ofNat 1 v

theorem encode_final (v : Word) : encode (.final v) = BitVec.ofNat 35 (0x400000000 + v.toNat) :=
  opWord_eq_ofNat 4 v

theorem encode_tailOf (n : BitVec 2) : encode (tailOf n) = BitVec.ofNat 35 (0x300000000 + n.toNat) := by
  revert n; decide

/-- A word is its opcode times `2^32` plus its argument (R61). -/
theorem eq_ofNat_of_op {w : OpWord} {k : Nat} (h : w.toNat / 2 ^ 32 = k) :
    BitVec.ofNat 35 (k * 2 ^ 32 + w.toNat % 2 ^ 32) = w := by
  rw [← h, Nat.div_add_mod', BitVec.ofNat_toNat, BitVec.setWidth_eq]

/-- The decoder loses nothing: a legal word is the encoder's word of its operation (R69). -/
theorem encode_of_decode {w : OpWord} {i : Instr} (h : decode w = .legal i) : encode i = w := by
  obtain h0 | h1 | h2 | h3 | h4 | h5 := opcode_cases w
  · rw [decode_of_op_zero h0] at h
    split at h <;> cases h
    rw [← eq_ofNat_of_op h0, ‹w.toNat % _ = 0›]
    rfl
  · rw [decode_of_op_one h1] at h
    cases h
    rw [encode_init, BitVec.toNat_ofNat, Nat.mod_mod]
    exact eq_ofNat_of_op h1
  · rw [decode_of_op_two h2] at h
    split at h <;> cases h
    rw [← eq_ofNat_of_op h2, ‹w.toNat % _ = 0›]
    rfl
  · rw [decode_of_op_three h3] at h
    split at h <;> cases h
    rw [encode_tailOf, BitVec.toNat_ofNat, Nat.mod_eq_of_lt ‹_›]
    exact eq_ofNat_of_op h3
  · rw [decode_of_op_four h4] at h
    cases h
    rw [encode_final, BitVec.toNat_ofNat, Nat.mod_mod]
    exact eq_ofNat_of_op h4
  · rw [decode_of_op_ge_five h5] at h
    cases h

/-- Settles O1: the decoder's equations, `decode_encode`, and `encode_of_decode` for both words. -/
theorem decoderIsTotalAndInverseOfEncoder : Obligations.DecoderIsTotalAndInverseOfEncoder := by
  refine ⟨fun w => ⟨fun h ha => (decode_of_op_zero h).trans (if_pos ha),
    fun h ha => (decode_of_op_zero h).trans (if_neg ha), decode_of_op_one,
    fun h ha => (decode_of_op_two h).trans (if_pos ha),
    fun h ha => (decode_of_op_two h).trans (if_neg ha), ?tail0, ?tail1, ?tail2, ?tail3,
    fun h ha => (decode_of_op_three h).trans (if_neg ha.not_gt), decode_of_op_four, decode_of_op_ge_five⟩,
    fun i _ => decode_encode i, fun w v i hw hv => (encode_of_decode hw).symm.trans (encode_of_decode hv)⟩
  all_goals
    intro h ha
    rw [decode_of_op_three h, ha]
    rfl

/-! ### O3: the illegal words -/

theorem decode_eq_reservedOpcode_iff (w : OpWord) :
    decode w = .illegal .reservedOpcode ↔ 5 ≤ w.toNat / 2 ^ 32 := by
  refine ⟨fun h => ?_, decode_of_op_ge_five⟩
  obtain h0 | h1 | h2 | h3 | h4 | h5 := opcode_cases w
  · rw [decode_of_op_zero h0] at h
    split at h <;> cases h
  · rw [decode_of_op_one h1] at h
    cases h
  · rw [decode_of_op_two h2] at h
    split at h <;> cases h
  · rw [decode_of_op_three h3] at h
    split at h <;> cases h
  · rw [decode_of_op_four h4] at h
    cases h
  · exact h5

theorem decode_eq_reservedBits_iff (w : OpWord) :
    decode w = .illegal .reservedBits ↔
      ((w.toNat / 2 ^ 32 = 0 ∨ w.toNat / 2 ^ 32 = 2) ∧ w.toNat % 2 ^ 32 ≠ 0) ∨
        (w.toNat / 2 ^ 32 = 3 ∧ 4 ≤ w.toNat % 2 ^ 32) := by
  obtain h | h | h | h | h | h := opcode_cases w
  · rw [decode_of_op_zero h, h]
    simp
  · rw [decode_of_op_one h, h]
    simp
  · rw [decode_of_op_two h, h]
    simp
  · rw [decode_of_op_three h, h]
    simp
  · rw [decode_of_op_four h, h]
    simp
  · rw [decode_of_op_ge_five h]
    simp only [Decoded.illegal.injEq, reduceCtorEq, false_iff]
    omega

theorem presentWord_of_illegal_of_err_clear {w : OpWord} {c : Cause} {s : State} (hw : decode w = .illegal c)
    (hs : s.err = false) : presentWord w s = .next (s.setFault c) := by
  simp [presentWord_of_illegal s hw, raiseIllegalOp, hs]

/-- Settles O3: one lemma for each cause, and `presentWord_of_illegal_of_err_clear`. -/
theorem illegalWordsAreExactlyThese : Obligations.IllegalWordsAreExactlyThese :=
  ⟨decode_eq_reservedOpcode_iff, decode_eq_reservedBits_iff,
    fun _ _ _ => presentWord_of_illegal_of_err_clear⟩

/-! ### O2: the rows of the opcode table -/

/-- The encoder's word of every operation selects its own row alone: the per-instruction family, together. -/
theorem tableWord (i : Instr) : Laws.TableWord.Statement i := by
  cases i with
  | nop => exact Laws.TableWord.nop
  | init seed => exact Laws.TableWord.init seed
  | block => exact Laws.TableWord.block
  | tail0 => exact Laws.TableWord.tail0
  | tail1 => exact Laws.TableWord.tail1
  | tail2 => exact Laws.TableWord.tail2
  | tail3 => exact Laws.TableWord.tail3
  | final len => exact Laws.TableWord.final len

/-- A row whose mask keeps every bit is selected by its own word alone. -/
theorem decode_of_selectedBy_full {w k : OpWord} {m : String}
    (h : TableRow.selectedBy ⟨m, k, 0x7FFFFFFFF⟩ w = true) : decode w = decode k := by
  have hmask : (0x7FFFFFFFF : OpWord) = BitVec.allOnes 35 := by decide
  have hwk : w = k := by
    simpa only [TableRow.selectedBy, hmask, BitVec.and_allOnes, decide_eq_true_eq] using h
  rw [hwk]

/-- A row whose mask keeps the opcode is selected by the words of that opcode alone. -/
theorem op_of_selectedBy_opcode {w : OpWord} (op : BitVec 3) {m : String}
    (h : TableRow.selectedBy ⟨m, opWord op 0, 0x700000000⟩ w = true) : w.toNat / 2 ^ 32 = op.toNat := by
  rw [← opWord_opField_argField w, Laws.TableWord.selectedBy_opcode, decide_eq_true_eq] at h
  have hop : opField w = op := by simpa [opField_opWord] using congrArg opField h
  rw [← toNat_opField, hop]

/-- A word that selects a row of the table is legal. -/
theorem legal_of_selectedBy {w : OpWord} {r : TableRow} (hr : r ∈ tableRows) (h : r.selectedBy w = true) :
    ∃ i, decode w = .legal i := by
  simp only [tableRows, List.mem_cons, List.not_mem_nil, or_false] at hr
  obtain rfl | rfl | rfl | rfl | rfl | rfl | rfl | rfl := hr
  · exact ⟨.nop, decode_of_selectedBy_full h⟩
  · exact ⟨_, decode_of_op_one (op_of_selectedBy_opcode 1 h)⟩
  · exact ⟨.block, decode_of_selectedBy_full h⟩
  · exact ⟨.tail0, decode_of_selectedBy_full h⟩
  · exact ⟨.tail1, decode_of_selectedBy_full h⟩
  · exact ⟨.tail2, decode_of_selectedBy_full h⟩
  · exact ⟨.tail3, decode_of_selectedBy_full h⟩
  · exact ⟨_, decode_of_op_four (op_of_selectedBy_opcode 4 h)⟩

/-- Settles O2: a legal word is its operation's word, which `tableWord` speaks of; a word that selects a row is
legal. -/
theorem tableRowsSelectWhatDecodes : Obligations.TableRowsSelectWhatDecodes := by
  refine fun w => ⟨fun i hw => ?_, fun c hw => ⟨?_, ?_⟩⟩
  · rw [← encode_of_decode hw]
    exact tableWord i
  · refine List.filter_eq_nil_iff.mpr fun r hr hsel => ?_
    obtain ⟨i, hi⟩ := legal_of_selectedBy hr hsel
    simp [hw] at hi
  · rw [← decode_eq_reservedOpcode_iff, hw, Decoded.illegal.injEq]

/-! ### O54: the assembler -/

theorem encode_block : encode .block = 0x200000000 := by decide

/-- The canonical stream as words (R68, R145). -/
theorem canonicalWords_eq (seed len : Word) :
    canonicalWords seed len = BitVec.ofNat 35 (0x100000000 + seed.toNat) ::
      (List.replicate (len.toNat / 4) 0x200000000 ++
        [BitVec.ofNat 35 (0x300000000 + len.toNat % 4), BitVec.ofNat 35 (0x400000000 + len.toNat)]) := by
  simp only [canonicalWords, canonicalStream, List.map_cons, List.map_append, List.map_replicate, List.map_nil,
    encode_init, encode_block, encode_tailOf, toNat_tailCount, encode_final]

/-! The lines of the assembler, each in its range (R67, R68). -/

theorem assemble_init {seed : Nat} (h : seed < 2 ^ 32) :
    assemble (.init seed) = some [BitVec.ofNat 35 (0x100000000 + seed)] := by
  have hwf : (AsmLine.init seed).wellFormed = true := decide_eq_true h
  rw [assemble, if_pos hwf]
  simp only [encode_init, BitVec.toNat_ofNat, Nat.mod_eq_of_lt h]

theorem assemble_tail {n : Nat} (h : n < 4) :
    assemble (.tail n) = some [BitVec.ofNat 35 (0x300000000 + n)] := by
  have hwf : (AsmLine.tail n).wellFormed = true := decide_eq_true h
  rw [assemble, if_pos hwf]
  simp only [encode_tailOf, BitVec.toNat_ofNat, Nat.mod_eq_of_lt h]

theorem assemble_final {len : Nat} (h : len < 2 ^ 32) :
    assemble (.final len) = some [BitVec.ofNat 35 (0x400000000 + len)] := by
  have hwf : (AsmLine.final len).wellFormed = true := decide_eq_true h
  rw [assemble, if_pos hwf]
  simp only [encode_final, BitVec.toNat_ofNat, Nat.mod_eq_of_lt h]

theorem assemble_word {w : Nat} (h : w < 2 ^ 35) : assemble (.word w) = some [BitVec.ofNat 35 w] := by
  have hwf : (AsmLine.word w).wellFormed = true := decide_eq_true h
  rw [assemble, if_pos hwf]

theorem assemble_hash {seed len : Nat} (hs : seed < 2 ^ 32) (hl : len < 2 ^ 32) :
    assemble (.hash seed len) = some (BitVec.ofNat 35 (0x100000000 + seed) ::
      (List.replicate (len / 4) 0x200000000 ++
        [BitVec.ofNat 35 (0x300000000 + len % 4), BitVec.ofNat 35 (0x400000000 + len)])) := by
  have hwf : (AsmLine.hash seed len).wellFormed = true := by
    rw [AsmLine.wellFormed, decide_eq_true hs, decide_eq_true hl, Bool.and_self]
  rw [assemble, if_pos hwf]
  simp only [canonicalWords_eq, BitVec.toNat_ofNat, Nat.mod_eq_of_lt hs, Nat.mod_eq_of_lt hl]

theorem assemble_of_not_wellFormed {l : AsmLine} (h : l.wellFormed = false) : assemble l = none := by
  simp [assemble, h]

/-- Settles O54: a lemma for each line, and `assemble_of_not_wellFormed` for the errors. -/
theorem assemblerWords : Obligations.AssemblerWords := by
  refine ⟨by decide, by decide, fun _ => assemble_init, fun _ => assemble_tail, fun _ => assemble_final,
    fun _ hs _ => assemble_hash hs, fun len => ?hashDefault, fun _ => assemble_word, fun _ h => ?word,
    fun _ h => ?tail, fun _ h => ⟨?init, ?final⟩⟩
  case hashDefault => simp [assemble, AsmLine.wellFormed]
  all_goals exact assemble_of_not_wellFormed (decide_eq_false h.not_gt)

/-! ### O4: written words. O21: the step at a presented word -/

/-- Settles O4: each written word is the encoder's word of its operation. -/
theorem writtenWordsDecode : Obligations.WrittenWordsDecode :=
  ⟨decode_encode .nop, decode_encode (.init 0x9747B28C), decode_encode .block, decode_encode .tail0,
    decode_encode .tail1, decode_encode .tail2, decode_encode .tail3, decode_encode (.final 13)⟩

theorem presentWord_of_legal {w : OpWord} {i : Instr} (s : State) (hw : decode w = .legal i) :
    presentWord w s = exec i s := by
  simp [presentWord, hw]

theorem step_of_present {s : State} {w : OpWord} {rest : List Turn} (hts : s.turns = .present w :: rest) :
    step s = presentWord w (s.setTurns rest) :=
  step_of_turns hts

/-- What a word read by the host's interface is: 35 bits that decode to the operation (R61, log 13). -/
theorem decodeTableWord_eq_some {nbits w : Nat} {i : Instr} (h : decodeTableWord nbits w = some i) :
    w < 2 ^ 35 ∧ decode (BitVec.ofNat 35 w) = .legal i := by
  unfold decodeTableWord at h
  split at h
  · split at h <;> cases h
    exact ⟨‹_›, ‹_›⟩
  · cases h

/-- A word placed on the port is presented next, and the turns listed before come after it (log 7). -/
theorem step_withFetchWord (s : State) (nbits : Nat) {w : Nat} (h : w < 2 ^ 35) :
    step (s.withFetchWord nbits w) = presentWord (BitVec.ofNat 35 w) s := by
  rw [State.withFetchWord, placeWord, if_pos h, step_of_present (State.setTurns_turns _ _)]
  rfl

/-- Settles O21: `step_of_present` and `step_withFetchWord` bring the step to `presentWord`. -/
theorem stepRunsThePresentedOperation : Obligations.StepRunsThePresentedOperation := by
  refine ⟨fun s w rest i hts hw _ => ?_, fun s w rest c hts hw => ?_, fun s nbits w i h => ?_⟩
  · rw [step_of_present hts, presentWord_of_legal _ hw]
  · rw [step_of_present hts, presentWord_of_illegal _ hw]
  · obtain ⟨hlt, hw⟩ := decodeTableWord_eq_some h
    rw [step_withFetchWord s nbits hlt, presentWord_of_legal _ hw]

end Sys2Proof.Machine
end

section
/-! ## The functional units: what each computes on bits and on exact integers, and the family's statements -/

namespace Sys2Proof.Machine

/-! ### The byte loader: O5, O6 (R80, R81) -/

/-- The two forms R80 gives of the full packing, as shifted bytes and as a concatenation, are one word. -/
theorem lepack4_eq_append (b0 b1 b2 b3 : Byte) : lepack4 b0 b1 b2 b3 = b3 ++ b2 ++ b1 ++ b0 := by
  have happend : (b3 ++ b2 ++ b1 ++ b0).setWidth 32 =
      zext32 b3 <<< 24 ||| zext32 b2 <<< 16 ||| zext32 b1 <<< 8 ||| zext32 b0 :=
    BitVec.setWidth_append_append_append_eq_shiftLeft_setWidth_or
  calc lepack4 b0 b1 b2 b3
    _ = zext32 b3 <<< 24 ||| zext32 b2 <<< 16 ||| zext32 b1 <<< 8 ||| zext32 b0 := by
      simp only [lepack4, BitVec.or_assoc, BitVec.or_comm]
    _ = b3 ++ b2 ++ b1 ++ b0 := happend.symm.trans (BitVec.setWidth_eq _)

/-- Settles O5: each byte is cut out of the concatenation once the bytes below it are dropped. -/
theorem lepackIsLittleEndian : Obligations.LepackIsLittleEndian := by
  intro b0 b1 b2 b3
  have happend := lepack4_eq_append b0 b1 b2 b3
  refine ⟨happend, ?_, ?_, ?_, ?_⟩ <;> rw [happend]
  · exact BitVec.extractLsb'_append_eq_right
  · rw [BitVec.extractLsb'_append_eq_of_le (by decide)]
    exact BitVec.extractLsb'_append_eq_right
  · rw [BitVec.extractLsb'_append_eq_of_le (by decide), BitVec.extractLsb'_append_eq_of_le (by decide)]
    exact BitVec.extractLsb'_append_eq_right
  · rw [BitVec.extractLsb'_append_eq_of_le (by decide), BitVec.extractLsb'_append_eq_of_le (by decide)]
    exact BitVec.extractLsb'_append_eq_left

@[simp] theorem zext32_zero : zext32 0#8 = 0#32 := by decide

theorem lepack1_eq_lepack4 (b0 : Byte) : lepack1 b0 = lepack4 b0 0 0 0 := by simp [lepack1, lepack4]

theorem lepack2_eq_lepack4 (b0 b1 : Byte) : lepack2 b0 b1 = lepack4 b0 b1 0 0 := by simp [lepack2, lepack4]

theorem lepack3_eq_lepack4 (b0 b1 b2 : Byte) : lepack3 b0 b1 b2 = lepack4 b0 b1 b2 0 := by
  simp [lepack3, lepack4]

/-- Settles O6: a partial form is the full form on zero bytes, whose concatenation begins with zeros. -/
theorem lepackPartialFormsZeroFill : Obligations.LepackPartialFormsZeroFill := by
  intro b0 b1 b2
  refine ⟨?one, ?two, ?three, lepack1_eq_lepack4 b0, lepack2_eq_lepack4 b0 b1, lepack3_eq_lepack4 b0 b1 b2⟩
  case one =>
    rw [lepack1_eq_lepack4, lepack4_eq_append]
    rfl
  case two =>
    rw [lepack2_eq_lepack4, lepack4_eq_append]
    rfl
  case three => exact (lepack3_eq_lepack4 b0 b1 b2).trans (lepack4_eq_append b0 b1 b2 0)

/-! ### The multiply-accumulate unit: O7 (R83) -/

theorem toNat_mac32 (a b c : Word) : (mac32 a b c).toNat = natMac a.toNat b.toNat c.toNat := by
  simp [mac32, natMac, BitVec.toNat_add, BitVec.toNat_mul]

/-- Settles O7: `natMac` is the rule's expression. -/
theorem macWrapsModulo32 : Obligations.MacWrapsModulo32 := toNat_mac32

/-! ### The rotation: O8 (R84) -/

theorem rotBits_pos (r : RotAmount) : 0 < rotBits r := by cases r <;> decide

theorem rotBits_lt (r : RotAmount) : rotBits r < 32 := by cases r <;> decide

/-- The shift pair of R84 is the library's rotation. -/
theorem rotl32_eq_rotateLeft (x : Word) (r : RotAmount) : rotl32 x r = x.rotateLeft (rotBits r) := by
  rw [BitVec.rotateLeft_def, Nat.mod_eq_of_lt (rotBits_lt r), rotl32]

/-- A rotation by any amount below 32, bit by bit. -/
theorem getLsbD_rotateLeft_word (x : Word) {r i : Nat} (hr : r < 32) (hi : i < 32) :
    (x.rotateLeft r).getLsbD i = x.getLsbD ((i + 32 - r) % 32) := by
  rw [BitVec.getLsbD_rotateLeft_of_le hr]
  by_cases h : i < r
  · have hwraps : (i + 32 - r) % 32 = 32 - r + i := by omega
    simp [h, hwraps]
  · have hstays : (i + 32 - r) % 32 = i - r := by omega
    simp [h, hi, hstays]

theorem getLsbD_rotl32 (x : Word) (r : RotAmount) {i : Nat} (hi : i < 32) :
    (rotl32 x r).getLsbD i = x.getLsbD ((i + 32 - rotBits r) % 32) := by
  rw [rotl32_eq_rotateLeft, getLsbD_rotateLeft_word x (rotBits_lt r) hi]

/-- The two parts of the shift pair do not overlap, so that their OR is their sum. -/
theorem shiftPair_or_eq_natRotl {x r : Nat} (hx : x < 2 ^ 32) (hr : r < 32) :
    x <<< r % 2 ^ 32 ||| x >>> (32 - r) = natRotl x r := by
  have hsplit : 2 ^ 32 = 2 ^ r * 2 ^ (32 - r) := by rw [← Nat.pow_add, Nat.add_sub_of_le hr.le]
  have hlow : x / 2 ^ (32 - r) < 2 ^ r := Nat.div_lt_of_lt_mul (by rwa [Nat.mul_comm, ← hsplit])
  rw [natRotl, Nat.shiftLeft_eq, Nat.shiftRight_eq_div_pow, Nat.mul_comm x, hsplit, Nat.mul_mod_mul_left,
    Nat.two_pow_add_eq_or_of_lt hlow]

theorem toNat_rotl32 (x : Word) (r : RotAmount) : (rotl32 x r).toNat = natRotl x.toNat (rotBits r) := by
  rw [rotl32, BitVec.toNat_or, BitVec.toNat_shiftLeft, BitVec.toNat_ushiftRight,
    shiftPair_or_eq_natRotl x.isLt (rotBits_lt r)]

/-- The bit places a rotation reads, in order: all 32, from `32 - r` on. -/
theorem rotatedPlaces_perm (r : RotAmount) :
    ((List.range 32).map fun i => (i + 32 - rotBits r) % 32).Perm (List.range 32) := by
  have hrotate : ((List.range 32).map fun i => (i + 32 - rotBits r) % 32) =
      (List.range 32).rotate (32 - rotBits r) := by
    cases r <;> decide
  exact hrotate ▸ List.rotate_perm _ _

theorem countP_rotl32 (x : Word) (r : RotAmount) :
    ((List.range 32).countP fun i => (rotl32 x r).getLsbD i) = (List.range 32).countP fun i => x.getLsbD i := by
  calc (List.range 32).countP (fun i => (rotl32 x r).getLsbD i)
    _ = (List.range 32).countP (fun i => x.getLsbD ((i + 32 - rotBits r) % 32)) :=
      List.countP_congr fun i hi => by rw [getLsbD_rotl32 x r (List.mem_range.mp hi)]
    _ = ((List.range 32).map fun i => (i + 32 - rotBits r) % 32).countP fun i => x.getLsbD i :=
      List.countP_map.symm
    _ = (List.range 32).countP fun i => x.getLsbD i := (rotatedPlaces_perm r).countP_eq _

theorem rotateLeft_rotl32 (x : Word) (r : RotAmount) : (rotl32 x r).rotateLeft (32 - rotBits r) = x := by
  have hpos := rotBits_pos r
  have hlt := rotBits_lt r
  refine BitVec.eq_of_getLsbD_eq fun i hi => ?_
  have hplace : ((i + 32 - (32 - rotBits r)) % 32 + 32 - rotBits r) % 32 = i := by omega
  rw [getLsbD_rotateLeft_word _ (by omega) hi, getLsbD_rotl32 _ _ (Nat.mod_lt _ (by decide)), hplace]

/-- Settles O8: a lemma for each law. -/
theorem rotationMovesEachBit : Obligations.RotationMovesEachBit :=
  ⟨fun x r _ => getLsbD_rotl32 x r, toNat_rotl32, countP_rotl32, rotateLeft_rotl32, rfl, rfl⟩

/-! ### The right shift and the fold: O9, O10 (R85, R86) -/

theorem toNat_shr32 (x : Word) (s : ShrAmount) : (shr32 x s).toNat = x.toNat / 2 ^ shrBits s := by
  rw [shr32, BitVec.toNat_ushiftRight, Nat.shiftRight_eq_div_pow]

/-- Settles O9, by `toNat_shr32`. -/
theorem shiftRightIsDivision : Obligations.ShiftRightIsDivision :=
  ⟨toNat_shr32, rfl, rfl⟩

theorem toNat_fold (x : Word) (s : ShrAmount) : (fold x s).toNat = natFold x.toNat (shrBits s) := by
  rw [fold, BitVec.toNat_xor, toNat_shr32, natFold]

theorem getLsbD_fold (x : Word) (s : ShrAmount) (i : Nat) :
    (fold x s).getLsbD i = (x.getLsbD i ^^ x.getLsbD (i + shrBits s)) := by
  rw [fold, shr32, BitVec.getLsbD_xor, BitVec.getLsbD_ushiftRight, Nat.add_comm]

theorem getLsbD_fold_top (x : Word) (s : ShrAmount) {i : Nat} (h : 32 ≤ i + shrBits s) :
    (fold x s).getLsbD i = x.getLsbD i := by
  rw [getLsbD_fold, BitVec.getLsbD_of_ge x _ h, Bool.xor_false]

theorem shrBits_pos (s : ShrAmount) : 0 < shrBits s := by cases s <;> decide

/-- `x` is recovered from the top down (R86): bit `i` from the fold and the bit `s` places above. -/
theorem getLsbD_eq_of_fold_eq {x y : Word} {s : ShrAmount} (h : fold x s = fold y s) (i : Nat) :
    x.getLsbD i = y.getLsbD i := by
  by_cases hi : i < 32
  · have hs := shrBits_pos s
    have above := getLsbD_eq_of_fold_eq h (i + shrBits s)
    have hbit := congrArg (·.getLsbD i) h
    simpa only [getLsbD_fold, above, Bool.xor_left_inj] using hbit
  · rw [BitVec.getLsbD_of_ge x i (not_lt.mp hi), BitVec.getLsbD_of_ge y i (not_lt.mp hi)]
termination_by 32 - i

theorem fold_injective (s : ShrAmount) : Function.Injective fun x : Word => fold x s :=
  fun _ _ h => BitVec.eq_of_getLsbD_eq fun i _ => getLsbD_eq_of_fold_eq h i

/-- Settles O10: an injection of a finite type into itself is a bijection. -/
theorem foldIsABijection : Obligations.FoldIsABijection :=
  ⟨fun x s i _ => getLsbD_fold x s i, fun x s _ h _ => getLsbD_fold_top x s h,
    fun s => Finite.injective_iff_bijective.mp (fold_injective s)⟩

/-! ### The key-word mix: O11 (R87) -/

theorem toNat_kmix (k : Word) : (kmix k).toNat = natKmix k.toNat := by
  rw [kmix, toNat_mac32, toNat_rotl32, toNat_mac32]
  rfl

theorem kmix_zero : kmix 0 = 0 := by decide

/-- Settles O11, by the integer readings of the three steps. -/
theorem keyMixOnIntegers : Obligations.KeyMixOnIntegers := ⟨toNat_kmix, kmix_zero⟩

end Sys2Proof.Machine
end

section
/-! ## The initialization family: `nop` and `tail 0` change nothing, and `init` starts a computation -/

namespace Sys2Proof.Machine

/-! ### O12: `nop` and `tail 0` (R101, R121) -/

theorem encode_nop : encode .nop = 0x000000000 := by decide

theorem encode_tail0 : encode .tail0 = 0x300000000 := by decide

/-- An operation without an effect answers the state it was given, faulted (R163) or not. -/
theorem exec_of_opEffect_eq_self {i : Instr} {s : State} (h : opEffect i s = s) : exec i s = .next s := by
  cases he : s.err with
  | true => exact exec_of_err i he
  | false => rw [exec_of_err_clear i he, h]

/-- Settles O12: neither operation has an effect. -/
theorem nopAndTailZeroChangeNothing : Obligations.NopAndTailZeroChangeNothing :=
  ⟨encode_nop, encode_tail0, fun _ => ⟨exec_of_opEffect_eq_self rfl, exec_of_opEffect_eq_self rfl⟩⟩

/-! ### O13: `init` (R100) -/

theorem toNat_encode_init (seed : Word) : (encode (.init seed)).toNat = 0x100000000 + seed.toNat :=
  toNat_opWord 1 seed

/-- The effect of `init` as one record: three registers written, every other field kept (R100). -/
theorem opEffect_init (seed : Word) (s : State) :
    opEffect (.init seed) s = { s with h := seed, p := 0, valid := false } := (rfl)

/-- Settles O13: the word by `toNat_encode_init`, the next state by `opEffect_init`. -/
theorem initStartsAComputation : Obligations.InitStartsAComputation := by
  intro seed s he
  exact ⟨toNat_encode_init seed, by rw [exec_of_err_clear _ he, opEffect_init]⟩

end Sys2Proof.Machine
end

section
/-! ## The block family: `block` folds one chunk into `H`, and is invertible on `H` -/

namespace Sys2Proof.Machine

/-! ### O14: `block` on exact integers (R110, R111) -/

theorem toNat_append_byte {n : Nat} (hi : BitVec n) (lo : Byte) : (hi ++ lo).toNat = lo.toNat + 256 * hi.toNat := by
  rw [BitVec.toNat_append, ← Nat.shiftLeft_add_eq_or_of_lt lo.isLt, Nat.shiftLeft_eq, Nat.mul_comm, Nat.add_comm]

theorem toNat_lepack4 (b0 b1 b2 b3 : Byte) :
    (lepack4 b0 b1 b2 b3).toNat = natPack [b0.toNat, b1.toNat, b2.toNat, b3.toNat] := by
  rw [lepack4_eq_append, toNat_append_byte, toNat_append_byte, toNat_append_byte]
  rfl

/-- The key word of `block` is the little-endian integer of the four bytes read at `P .. P+3` (R110). -/
theorem toNat_chunkWord (s : State) : s.chunkWord.toNat = natPack (s.keyNats 4) :=
  toNat_lepack4 (s.keyByte 0) (s.keyByte 1) (s.keyByte 2) (s.keyByte 3)

theorem toNat_blockMix (h k : Word) : (blockMix h k).toNat = natBlock h.toNat k.toNat := by
  rw [blockMix, toNat_mac32, toNat_rotl32, BitVec.toNat_xor, toNat_kmix]
  rfl

@[simp] theorem opEffect_block_h (s : State) : (opEffect .block s).h = blockMix s.h s.chunkWord := (rfl)

@[simp] theorem opEffect_block_p (s : State) : (opEffect .block s).p = s.p + 4 := (rfl)

/-- Settles O14: the new `H` read on exact integers; `RESULT` and `VALID` are kept because `block` is neither
`init` nor `final`, the rest because no operation writes it. -/
theorem blockFoldsOneChunk : Obligations.BlockFoldsOneChunk := by
  intro s he
  have hH : (opEffect .block s).h.toNat = natBlock s.h.toNat (natPack (s.keyNats 4)) := by
    rw [opEffect_block_h, toNat_blockMix, toNat_chunkWord]
  have hP : (opEffect .block s).p.toNat = (s.p.toNat + 4) % 2 ^ 32 := toNat_add_four s.p
  exact ⟨encode_block, opEffect .block s, exec_of_err_clear .block he, hH, hP,
    opEffect_result s nofun, opEffect_valid s nofun nofun, opEffect_err .block s, opEffect_ecause .block s,
    opEffect_phase .block s, opEffect_lenr .block s, opEffect_key .block s, opEffect_turns .block s⟩

/-! ### O48: `block` is a bijection on `H` (R113) -/

/-- A multiply-accumulate with an odd multiplier loses nothing: the multiplier is prime to `2^32`. -/
theorem mac32_injective {b : Word} (hb : Odd b.toNat) (c : Word) :
    Function.Injective fun a : Word => mac32 a b c := by
  intro x y h
  have hcop : Nat.gcd (2 ^ 32) b.toNat = 1 := hb.coprime_two_left.pow_left 32
  have hmul : x.toNat * b.toNat ≡ y.toNat * b.toNat [MOD 2 ^ 32] := by
    have hmac : natMac x.toNat b.toNat c.toNat = natMac y.toNat b.toNat c.toNat := by
      rw [← toNat_mac32, ← toNat_mac32]
      exact congrArg BitVec.toNat h
    exact Nat.ModEq.add_right_cancel' c.toNat hmac
  exact BitVec.eq_of_toNat_eq ((hmul.cancel_right_of_coprime hcop).eq_of_lt_of_lt x.isLt y.isLt)

theorem rotl32_injective (r : RotAmount) : Function.Injective fun x : Word => rotl32 x r :=
  Function.LeftInverse.injective (g := fun x => x.rotateLeft (32 - rotBits r)) fun x => rotateLeft_rotl32 x r

theorem odd_hashMul : Odd hashMul.toNat := by decide

/-- XOR with the mixed key word, the rotation and the multiply-accumulate by the odd `m` are each injective. -/
theorem blockMix_injective (k : Word) : Function.Injective fun h : Word => blockMix h k := by
  intro x y h
  have hrot : rotl32 (x ^^^ kmix k) .r2 = rotl32 (y ^^^ kmix k) .r2 := mac32_injective odd_hashMul hashAdd h
  have hxor : x ^^^ kmix k = y ^^^ kmix k := rotl32_injective .r2 hrot
  exact (BitVec.xor_left_inj (kmix k)).mp hxor

/-- Settles O48: an injection of a finite type into itself is a bijection. -/
theorem blockIsABijectionOnTheHash : Obligations.BlockIsABijectionOnTheHash :=
  fun k => Finite.injective_iff_bijective.mp (blockMix_injective k)

end Sys2Proof.Machine
end

section
/-! ## The tail family: `tail 1..3` XOR the mixed partial word into `H` and write nothing else -/

namespace Sys2Proof.Machine

/-! ### The partial words (R122 to R124) -/

theorem State.tailWord1_eq_lepack4 (s : State) : s.tailWord1 = lepack4 (s.keyByte 0) 0 0 0 :=
  lepack1_eq_lepack4 _

theorem State.tailWord2_eq_lepack4 (s : State) : s.tailWord2 = lepack4 (s.keyByte 0) (s.keyByte 1) 0 0 :=
  lepack2_eq_lepack4 _ _

theorem State.tailWord3_eq_lepack4 (s : State) :
    s.tailWord3 = lepack4 (s.keyByte 0) (s.keyByte 1) (s.keyByte 2) 0 :=
  lepack3_eq_lepack4 _ _ _

/-- Zero bytes above a packed chunk weigh nothing (R81). -/
theorem natPack_append_zeros (bs : List Nat) (n : Nat) : natPack (bs ++ List.replicate n 0) = natPack bs := by
  induction bs with
  | nil =>
    induction n with
    | zero => rfl
    | succ n ih => simpa [List.replicate_succ, natPack] using ih
  | cons b bs ih => simp [natPack, ih]

theorem toNat_tailWord1 (s : State) : s.tailWord1.toNat = natPack (s.keyNats 1) := by
  rw [s.tailWord1_eq_lepack4, toNat_lepack4]
  exact natPack_append_zeros (s.keyNats 1) 3

theorem toNat_tailWord2 (s : State) : s.tailWord2.toNat = natPack (s.keyNats 2) := by
  rw [s.tailWord2_eq_lepack4, toNat_lepack4]
  exact natPack_append_zeros (s.keyNats 2) 2

theorem toNat_tailWord3 (s : State) : s.tailWord3.toNat = natPack (s.keyNats 3) := by
  rw [s.tailWord3_eq_lepack4, toNat_lepack4]
  exact natPack_append_zeros (s.keyNats 3) 1

/-! ### O15: `tail 1`, `tail 2`, `tail 3` on exact integers (R122 to R124) -/

theorem toNat_tailMix (h k : Word) : (tailMix h k).toNat = h.toNat ^^^ natKmix k.toNat := by
  rw [tailMix, BitVec.toNat_xor, toNat_kmix]

@[simp] theorem opEffect_tail1_h (s : State) : (opEffect .tail1 s).h = tailMix s.h s.tailWord1 := (rfl)

@[simp] theorem opEffect_tail2_h (s : State) : (opEffect .tail2 s).h = tailMix s.h s.tailWord2 := (rfl)

@[simp] theorem opEffect_tail3_h (s : State) : (opEffect .tail3 s).h = tailMix s.h s.tailWord3 := (rfl)

theorem toNat_encode_tailOf (n : BitVec 2) : (encode (tailOf n)).toNat = 0x300000000 + n.toNat := by
  have hn := n.isLt
  rw [encode_tailOf, BitVec.toNat_ofNat, Nat.mod_eq_of_lt (by omega)]

theorem tailOf_ne_block (n : BitVec 2) : tailOf n ≠ .block := by
  rcases tailOf_cases n with h | h | h | h <;> simp [h]

/-- No variant of `tail` writes `P` (R120). -/
theorem opEffect_tailOf_p (n : BitVec 2) (s : State) : (opEffect (tailOf n) s).p = s.p := by
  rw [opEffect_p s (tailOf_ne_init n), if_neg (tailOf_ne_block n)]

/-- Settles O15: the new `H` variant by variant, on exact integers; the word and what stays for every `tailOf`. -/
theorem tailXorsThePartialWord : Obligations.TailXorsThePartialWord := by
  intro s n i hi he
  have hH : (opEffect i s).h.toNat = s.h.toNat ^^^ natKmix (natPack (s.keyNats n)) := by
    obtain ⟨rfl, rfl⟩ | ⟨rfl, rfl⟩ | ⟨rfl, rfl⟩ := hi
    · rw [opEffect_tail1_h, toNat_tailMix, toNat_tailWord1]
    · rw [opEffect_tail2_h, toNat_tailMix, toNat_tailWord2]
    · rw [opEffect_tail3_h, toNat_tailMix, toNat_tailWord3]
  obtain ⟨m, rfl, rfl⟩ : ∃ m : BitVec 2, n = m.toNat ∧ i = tailOf m := by
    obtain ⟨rfl, rfl⟩ | ⟨rfl, rfl⟩ | ⟨rfl, rfl⟩ := hi
    · exact ⟨1, rfl, rfl⟩
    · exact ⟨2, rfl, rfl⟩
    · exact ⟨3, rfl, rfl⟩
  exact ⟨toNat_encode_tailOf m, opEffect (tailOf m) s, exec_of_err_clear _ he, hH, opEffect_tailOf_p m s,
    opEffect_result s (tailOf_ne_final m), opEffect_valid s (tailOf_ne_init m) (tailOf_ne_final m),
    opEffect_err _ s, opEffect_ecause _ s, opEffect_phase _ s, opEffect_lenr _ s, opEffect_key _ s,
    opEffect_turns _ s⟩

/-! ### O53: a truncated `block` on the zero-filled chunk (R125) -/

/-- Mixing a chunk of four zero bytes leaves `H`, as `tail 0` does. -/
theorem tailMix_lepack4_zero (h : Word) : tailMix h (lepack4 0 0 0 0) = h := by
  have hzero : lepack4 0 0 0 0 = 0 := by decide
  rw [tailMix, hzero, kmix_zero]
  exact BitVec.xor_zero

/-- Settles O53: each partial word is the zero-filled chunk, and four zero bytes mix to zero. -/
theorem tailIsAZeroFilledTruncatedBlock : Obligations.TailIsAZeroFilledTruncatedBlock := by
  intro s he
  refine ⟨⟨_, exec_of_err_clear .tail1 he, ?_⟩, ⟨_, exec_of_err_clear .tail2 he, ?_⟩,
    ⟨_, exec_of_err_clear .tail3 he, ?_⟩, ⟨_, exec_of_err_clear .tail0 he, ?_⟩⟩
  · rw [opEffect_tail1_h, tailMix, s.tailWord1_eq_lepack4]
  · rw [opEffect_tail2_h, tailMix, s.tailWord2_eq_lepack4]
  · rw [opEffect_tail3_h, tailMix, s.tailWord3_eq_lepack4]
  · exact (tailMix_lepack4_zero s.h).symm

end Sys2Proof.Machine
end

section
/-! ## The finalization family: `final` delivers the avalanche mix, is invertible on `H`, and ends the empty run -/

namespace Sys2Proof.Machine

/-! ### O16: `final` on exact integers (R130) -/

theorem toNat_finalMix (h len : Word) : (finalMix h len).toNat = natFinal h.toNat len.toNat := by
  rw [finalMix, toNat_fold, toNat_mac32, toNat_fold, toNat_mac32, toNat_fold, BitVec.toNat_xor]
  rfl

theorem toNat_encode_final (len : Word) : (encode (.final len)).toNat = 0x400000000 + len.toNat :=
  toNat_opWord 4 len

theorem setH_setResult_setValid (s : State) (v w : Word) (b : Bool) :
    ((s.setH v).setResult w).setValid b = { s with h := v, result := w, valid := b } := (rfl)

/-- The effect of `final` as one record: three registers written, every other field kept (R130). It goes through
`setH_setResult_setValid`, whose words are variables, so that the kernel never unfolds the hash arithmetic. -/
theorem opEffect_final (len : Word) (s : State) :
    opEffect (.final len) s = { s with h := finalMix s.h len, result := finalMix s.h len, valid := true } :=
  setH_setResult_setValid s (finalMix s.h len) (finalMix s.h len) true

/-- Settles O16: the word by `toNat_encode_final`, the value read on exact integers, the next state by
`opEffect_final`. -/
theorem finalDeliversTheHash : Obligations.FinalDeliversTheHash := by
  intro len s he
  exact ⟨toNat_encode_final len, finalMix s.h len, toNat_finalMix s.h len,
    by rw [exec_of_err_clear _ he, opEffect_final]⟩

/-! ### O49: `final` is a bijection from the old `H` to `RESULT` (R132) -/

theorem odd_f1 : Odd f1.toNat := by decide

theorem odd_f2 : Odd f2.toNat := by decide

/-- `final` composes, from the XOR with `len` outwards, folds and multiplications by odd constants (R130), and each
of them is injective. -/
theorem finalMix_injective (len : Word) : Function.Injective fun h : Word => finalMix h len :=
  have hxor : Function.Injective fun h : Word => h ^^^ len := fun _ _ => (BitVec.xor_left_inj len).mp
  have hround1 := (mac32_injective odd_f1 0).comp ((fold_injective .s16).comp hxor)
  have hround2 := (mac32_injective odd_f2 0).comp ((fold_injective .s13).comp hround1)
  (fold_injective .s16).comp hround2

/-- Settles O49: an injection of a finite type into itself is a bijection. -/
theorem finalIsABijectionOnTheHash : Obligations.FinalIsABijectionOnTheHash :=
  fun len => Finite.injective_iff_bijective.mp (finalMix_injective len)

/-! ### O52: the empty input (R133) -/

/-- Step 4 of the contract (R146) is the function `final` applies (R130). -/
theorem hashFinal_eq_finalMix (h len : Word) : hashFinal h len = finalMix h len := (rfl)

theorem hashTail_of_mod_four_eq_zero (key : Nat → Byte) {len : Nat} (hlen : len % 4 = 0) (h : Word) :
    hashTail key len h = h := by
  simp [hashTail, hlen]

/-- An empty input has no chunk and no trailing byte, so the seed itself is finalized. -/
theorem murmur3_zero_len (key : Nat → Byte) (seed : Word) : murmur3 key 0 seed = finalMix seed 0 := by
  have hblocks : hashBlocks key seed ((0 : Word).toNat / 4) = seed := rfl
  rw [murmur3, hblocks, hashTail_of_mod_four_eq_zero key rfl, hashFinal_eq_finalMix]

theorem canonicalStream_zero_len (seed : Word) : canonicalStream seed 0 = [.init seed, .tail0, .final 0] := (rfl)

/-- Settles O52: the stream has no block, the hash is the finalized seed, and the three values are that of
`finalMix` at the seeds R133 prints. -/
theorem emptyInputFinalizesTheSeed : Obligations.EmptyInputFinalizesTheSeed := by
  refine ⟨canonicalStream_zero_len, fun key seed => ?natural, fun key => ?printed⟩
  case natural =>
    rw [murmur3_zero_len, toNat_finalMix]
    rfl
  case printed =>
    rw [murmur3_zero_len, murmur3_zero_len, murmur3_zero_len]
    decide

end Sys2Proof.Machine
end

section
/-! ## The sequencer family: one step of each rule, a whole run, and the contract it computes -/

namespace Sys2Proof.Machine

/-! ### The sequencer's rules, one equation for each (R141 to R144) -/

/-- The block is done with the full chunks exactly when `P` and `LENR` agree above bit 1 (R142). -/
theorem blockCount_eq_iff (v w : Word) : blockCount v = blockCount w ↔ v.toNat / 4 = w.toNat / 4 := by
  have hv := v.isLt
  have hw := w.isLt
  simp only [blockCount, ← BitVec.toNat_inj, BitVec.extractLsb'_toNat, Nat.shiftRight_eq_div_pow]
  omega

/-- The tail selected by `LENR[1:0]` (R143). -/
theorem tailOf_tailCount_cases (len : Word) :
    (len.toNat % 4 = 0 ∧ tailOf (tailCount len) = .tail0) ∨
      (len.toNat % 4 = 1 ∧ tailOf (tailCount len) = .tail1) ∨
      (len.toNat % 4 = 2 ∧ tailOf (tailCount len) = .tail2) ∨
      (len.toNat % 4 = 3 ∧ tailOf (tailCount len) = .tail3) := by
  obtain h | h | h | h : len.toNat % 4 = 0 ∨ len.toNat % 4 = 1 ∨ len.toNat % 4 = 2 ∨ len.toNat % 4 = 3 := by
    omega
  all_goals simp [tailOf, toNat_tailCount, h]

section
variable {s : State}

theorem step_of_no_turns (hts : s.turns = []) : step s = blockTurn s := by
  simp [step, nextTurn, hts, takeTurn]

theorem step_of_block (hts : s.turns = []) (he : s.err = false) (hp : s.phase = .absorb)
    (hc : s.p.toNat / 4 ≠ s.lenr.toNat / 4) : step s = .next ((opEffect .block s).setPhase .absorb) := by
  have hb : s.blockEnabled = true := by simp [State.blockEnabled, hp, blockCount_eq_iff, hc]
  simp [step_of_no_turns hts, blockTurn, he, hb, issue_of_err_clear _ _ he]

theorem step_of_tail (hts : s.turns = []) (he : s.err = false) (hp : s.phase = .absorb)
    (hc : s.p.toNat / 4 = s.lenr.toNat / 4) :
    step s = .next ((opEffect (tailOf (tailCount s.lenr)) s).setPhase .final) := by
  have hb : s.blockEnabled = false := by simp [State.blockEnabled, blockCount_eq_iff, hc]
  have ht : s.tailEnabled = true := by simp [State.tailEnabled, hp, blockCount_eq_iff, hc]
  simp [step_of_no_turns hts, blockTurn, he, hb, ht, issue_of_err_clear _ _ he]

theorem step_of_final (hts : s.turns = []) (he : s.err = false) (hp : s.phase = .final) :
    step s = .next ((opEffect (.final s.lenr) s).setPhase .done) := by
  simp [step_of_no_turns hts, blockTurn, he, State.blockEnabled, State.tailEnabled, State.finalEnabled, hp,
    issue_of_err_clear _ _ he]

theorem State.waiting_iff : s.waiting = true ↔ s.phase = .idle ∨ s.phase = .done := by
  simp [State.waiting]

theorem step_of_waiting (hts : s.turns = []) (hw : s.waiting = true) : step s = .next s := by
  obtain hp | hp := State.waiting_iff.mp hw <;>
    simp [step_of_no_turns hts, blockTurn, State.blockEnabled, State.tailEnabled, State.finalEnabled, hp]

theorem step_of_start {seed len : Word} {rest : List Turn} (hts : s.turns = .host (.start seed len) :: rest)
    (hr : s.ready = true) :
    step s = .next ((opEffect (.init seed) ((s.setTurns rest).setLenr len)).setPhase .absorb) := by
  have hr' : (s.setTurns rest).ready = true := hr
  have he : ((s.setTurns rest).setLenr len).err = false := (State.waits_of_ready hr).2
  rw [step_of_turns hts, takeTurn, hostMove, startMove, if_pos hr', acceptStart, issue_of_err_clear _ _ he]

theorem step_of_start_ignored {seed len : Word} {rest : List Turn}
    (hts : s.turns = .host (.start seed len) :: rest) (hr : s.ready = false) :
    step s = .next (s.setTurns rest) := by
  have hr' : (s.setTurns rest).ready = false := hr
  simp [step_of_turns hts, takeTurn, hostMove, startMove, hr']

end

/-- Writing the phase a state is in changes nothing. -/
theorem State.setPhase_self (s : State) : s.setPhase s.phase = s := (rfl)

/-- Settles O24: an accepted `start` issues `init seed`, whose effect is three registers. -/
theorem startIsAcceptedOnlyWhenReady : Obligations.StartIsAcceptedOnlyWhenReady := by
  intro s seed len rest hts
  refine ⟨fun hr => ?_, step_of_start_ignored hts⟩
  rw [step_of_start hts hr, opEffect_init]
  rfl

/-- Settles O25, by `step_of_block`: `PHASE` is `ABSORB` before and after. -/
theorem sequencerBlockStep : Obligations.SequencerBlockStep := by
  intro s hts he hp hc
  have hph : (opEffect .block s).phase = .absorb := by simpa using hp
  have hstay : (opEffect .block s).setPhase .absorb = opEffect .block s := by
    rw [← hph]
    exact State.setPhase_self _
  exact ⟨opEffect .block s, exec_of_err_clear _ he, by rw [step_of_block hts he hp hc, hstay], hph,
    toNat_add_four s.p⟩

/-- Settles O26, by `step_of_tail` and the four values of `LENR[1:0]`. -/
theorem sequencerTailStep : Obligations.SequencerTailStep := by
  intro s hts he hp hc
  refine ⟨tailOf (tailCount s.lenr), _, exec_of_err_clear _ he, step_of_tail hts he hp hc, ?_⟩
  obtain ⟨hm, hi⟩ | ⟨hm, hi⟩ | ⟨hm, hi⟩ | ⟨hm, hi⟩ := tailOf_tailCount_cases s.lenr
  all_goals simp [hm, hi]

/-- Settles O27, by `step_of_final`. -/
theorem sequencerFinalStep : Obligations.SequencerFinalStep := by
  intro s hts he hp
  exact ⟨_, exec_of_err_clear _ he, step_of_final hts he hp, opEffect_final_valid s _, rfl⟩

/-- Settles O28: `PHASE` tells the three apart, and in `ABSORB` the comparison of R142 does. -/
theorem exactlyOneRuleIsEnabled : Obligations.ExactlyOneRuleIsEnabled := by
  refine ⟨fun s => ?_, fun s hw hts => step_of_waiting hts hw⟩
  cases hp : s.phase with
  | idle | final | done =>
    simp [State.waiting, State.blockEnabled, State.tailEnabled, State.finalEnabled, hp]
  | absorb =>
    by_cases hc : blockCount s.p = blockCount s.lenr <;>
      simp [State.waiting, State.blockEnabled, State.tailEnabled, State.finalEnabled, hp, hc]

/-! ### O40: the data never influence the control (R149) -/

/-- Where the first outcome is a next state, so is the second, and the two agree on control. -/
def SameControl (o o' : Host.Outcome State Fault Refusal) : Prop :=
  ∀ s', o = .next s' → ∃ t', o' = .next t' ∧ s'.controlEq t'

theorem sameControl_next {s t : State} (h : s.controlEq t) : SameControl (.next s) (.next t) := by
  intro s' hs'
  cases hs'
  exact ⟨t, rfl, h⟩

section
variable {s t : State}

theorem controlEq_setPhase (h : s.controlEq t) (ph : Phase) : (s.setPhase ph).controlEq (t.setPhase ph) := by
  obtain ⟨hp, hv, he, hc, -, hl, ht, hd⟩ := h
  exact ⟨hp, hv, he, hc, rfl, hl, ht, hd⟩

theorem controlEq_setLenr (h : s.controlEq t) (len : Word) : (s.setLenr len).controlEq (t.setLenr len) := by
  obtain ⟨hp, hv, he, hc, hph, -, ht, hd⟩ := h
  exact ⟨hp, hv, he, hc, hph, rfl, ht, hd⟩

theorem controlEq_setTurns (h : s.controlEq t) (ts : List Turn) : (s.setTurns ts).controlEq (t.setTurns ts) := by
  obtain ⟨hp, hv, he, hc, hph, hl, -, hd⟩ := h
  exact ⟨hp, hv, he, hc, hph, hl, rfl, hd⟩

theorem controlEq_setFault (h : s.controlEq t) (c : Cause) : (s.setFault c).controlEq (t.setFault c) := by
  obtain ⟨hp, hv, -, -, hph, hl, ht, hd⟩ := h
  exact ⟨hp, hv, rfl, rfl, hph, hl, ht, hd⟩

/-- What an operation writes of the control state does not depend on the data: `P`, `VALID` and the count of
draws (R149). -/
theorem controlEq_opEffect (i : Instr) (h : s.controlEq t) : (opEffect i s).controlEq (opEffect i t) := by
  obtain ⟨hp, hv, he, hc, hph, hl, ht, hd⟩ := h
  cases i <;> simp [opEffect, State.controlEq, hp, hv, he, hc, hph, hl, ht, hd]

/-- Each reset draws the same free words in both states. -/
theorem controlEq_applyReset (h : s.controlEq t) : (applyReset s).controlEq (applyReset t) := by
  obtain ⟨-, -, -, -, -, -, ht, hd⟩ := h
  simp [State.controlEq, ht, hd]

theorem controlEq_raiseIllegalOp (c : Cause) (h : s.controlEq t) :
    (raiseIllegalOp c s).controlEq (raiseIllegalOp c t) := by
  have ⟨_, _, he, _⟩ := h
  cases hs : t.err
  · simpa [raiseIllegalOp, he, hs] using controlEq_setFault h c
  · simpa [raiseIllegalOp, he, hs] using h

theorem sameControl_exec (i : Instr) (h : s.controlEq t) : SameControl (exec i s) (exec i t) := by
  have ⟨_, _, he, _⟩ := h
  cases hs : s.err with
  | true =>
    rw [exec_of_err i hs, exec_of_err i (he ▸ hs)]
    exact sameControl_next h
  | false =>
    rw [exec_of_err_clear i hs, exec_of_err_clear i (he ▸ hs)]
    exact sameControl_next (controlEq_opEffect i h)

theorem sameControl_presentWord (w : OpWord) (h : s.controlEq t) :
    SameControl (presentWord w s) (presentWord w t) := by
  cases hw : decode w with
  | legal i =>
    rw [presentWord_of_legal s hw, presentWord_of_legal t hw]
    exact sameControl_exec i h
  | illegal c =>
    rw [presentWord_of_illegal s hw, presentWord_of_illegal t hw]
    exact sameControl_next (controlEq_raiseIllegalOp c h)

theorem sameControl_issue (i : Instr) (ph : Phase) (h : s.controlEq t) :
    SameControl (issue i ph s) (issue i ph t) := by
  intro s' hs'
  obtain ⟨u, hu, rfl⟩ := issue_next hs'
  obtain ⟨v, hv, huv⟩ := sameControl_presentWord _ h u hu
  exact ⟨v.setPhase ph, by simp [issue, hv], controlEq_setPhase huv ph⟩

/-- The sequencer chooses by `ERR`, `PHASE`, `P` and `LENR` alone. -/
theorem sameControl_blockTurn (h : s.controlEq t) : SameControl (blockTurn s) (blockTurn t) := by
  have ⟨hp, _, he, _, hph, hl, _⟩ := h
  have hblock : s.blockEnabled = t.blockEnabled := by simp only [State.blockEnabled, hph, hp, hl]
  have htail : s.tailEnabled = t.tailEnabled := by simp only [State.tailEnabled, hph, hp, hl]
  have hfinal : s.finalEnabled = t.finalEnabled := by simp only [State.finalEnabled, hph]
  rw [blockTurn, blockTurn, he, hblock, htail, hfinal, hl]
  split_ifs
  · exact sameControl_next h
  · exact sameControl_issue .block .absorb h
  · exact sameControl_issue (tailOf (tailCount t.lenr)) .final h
  · exact sameControl_issue (.final t.lenr) .done h
  · exact sameControl_next h

theorem busy_eq_of_controlEq (h : s.controlEq t) : s.busy = t.busy := by
  have ⟨_, _, _, _, hph, _⟩ := h
  simp only [State.busy, hph]

theorem sameControl_startMove (seed len : Word) (h : s.controlEq t) :
    SameControl (startMove seed len s) (startMove seed len t) := by
  have ⟨_, _, he, _⟩ := h
  have hready : s.ready = t.ready := by rw [State.ready, State.ready, busy_eq_of_controlEq h, he]
  rw [startMove, startMove, hready]
  split_ifs
  · exact sameControl_issue (.init seed) .absorb (controlEq_setLenr h len)
  · exact sameControl_next h

/-- Placing a key changes nothing of the control state. -/
theorem sameControl_fillKeyMove (bytes : List Byte) (h : s.controlEq t) :
    SameControl (fillKeyMove bytes s) (fillKeyMove bytes t) := by
  rw [fillKeyMove, fillKeyMove, busy_eq_of_controlEq h]
  split_ifs
  · nofun
  · exact sameControl_next h
  · nofun

theorem sameControl_takeTurn (x : Turn) (h : s.controlEq t) : SameControl (takeTurn x s) (takeTurn x t) := by
  match x with
  | .block => exact sameControl_blockTurn h
  | .present w => exact sameControl_presentWord w h
  | .host .reset => exact sameControl_next (controlEq_applyReset h)
  | .host (.start seed len) => exact sameControl_startMove seed len h
  | .host (.fillKey bytes) => exact sameControl_fillKeyMove bytes h

end

/-- Settles O40: the two states take the same turn, and each turn keeps the agreement. -/
theorem dataNeverInfluenceControl : Obligations.DataNeverInfluenceControl := by
  intro s t s' h hs'
  have ⟨_, _, _, _, _, _, hts, _⟩ := h
  cases hs : s.turns with
  | nil =>
    rw [step_of_no_turns hs] at hs'
    rw [step_of_no_turns (hts ▸ hs)]
    exact sameControl_blockTurn h s' hs'
  | cons x rest =>
    rw [step_of_turns hs] at hs'
    rw [step_of_turns (hts ▸ hs)]
    exact sameControl_takeTurn x (controlEq_setTurns h rest) s' hs'

/-! ### O47: the fold over the byte list is the contract by index (R146) -/

/-- The first chunk may be taken off the front: the key is then read four bytes further on. -/
theorem hashBlocks_succ_eq_shift (key : Nat → Byte) (seed : Word) (n : Nat) :
    hashBlocks key seed (n + 1) =
      hashBlocks (fun i => key (i + 4)) (chunkStep seed (lepack4 (key 0) (key 1) (key 2) (key 3))) n := by
  induction n with
  | zero => rfl
  | succ n ih =>
    rw [hashBlocks, ih, hashBlocks]
    rfl

/-- A key with a chunk in front has the trailing bytes of the key without it. -/
theorem hashTail_add_four (key : Nat → Byte) (len : Nat) (h : Word) :
    hashTail key (len + 4) h = hashTail (fun i => key (i + 4)) len h := by
  have hmod : (len + 4) % 4 = len % 4 := Nat.add_mod_right len 4
  have hdiv : 4 * ((len + 4) / 4) = 4 * (len / 4) + 4 := by omega
  simp only [hashTail, hmod, hdiv, Nat.add_right_comm _ 4]

theorem foldl_chunkWords_eq_hashBlocks (bytes : List Byte) (seed : Word) :
    (chunkWords bytes).foldl chunkStep seed = hashBlocks (fun i => bytes.getD i 0) seed (bytes.length / 4) := by
  match bytes with
  | b0 :: b1 :: b2 :: b3 :: rest =>
    have hlen : (b0 :: b1 :: b2 :: b3 :: rest).length / 4 = rest.length / 4 + 1 :=
      Nat.add_div_right rest.length four_pos
    rw [hlen, hashBlocks_succ_eq_shift, chunkWords, List.foldl_cons, foldl_chunkWords_eq_hashBlocks rest]
    rfl
  | [] | [_] | [_, _] | [_, _, _] => simp [chunkWords, hashBlocks]

theorem tailStep_trailingBytes_eq_hashTail (bytes : List Byte) (h : Word) :
    tailStep h (trailingBytes bytes) = hashTail (fun i => bytes.getD i 0) bytes.length h := by
  match bytes with
  | b0 :: b1 :: b2 :: b3 :: rest =>
    have hlen : (b0 :: b1 :: b2 :: b3 :: rest).length = rest.length + 4 := rfl
    rw [hlen, hashTail_add_four, trailingBytes, tailStep_trailingBytes_eq_hashTail rest]
    rfl
  | [] | [_] | [_, _] | [_, _, _] => simp [trailingBytes, tailStep, hashTail]

/-- Settles O47: the chunks by `foldl_chunkWords_eq_hashBlocks`, the trailing bytes by
`tailStep_trailingBytes_eq_hashTail`. -/
theorem indexedAndFoldedMurmurAgree : Obligations.IndexedAndFoldedMurmurAgree := by
  intro bytes seed hlen
  have hnat : (BitVec.ofNat 32 bytes.length).toNat = bytes.length := Nat.mod_eq_of_lt hlen
  rw [murmur3Bytes, murmur3, hnat, foldl_chunkWords_eq_hashBlocks, tailStep_trailingBytes_eq_hashTail]

/-! ### O50: the contract is injective in the seed (R151) -/

/-- The body of step 2 of R146 is the hash step of `block` (R110). -/
theorem chunkStep_eq_blockMix (h k : Word) : chunkStep h k = blockMix h k := (rfl)

theorem hashBlocks_injective (key : Nat → Byte) (n : Nat) :
    Function.Injective fun seed : Word => hashBlocks key seed n := by
  induction n with
  | zero => exact Function.injective_id
  | succ n ih => exact (blockMix_injective _).comp ih

/-- Step 3 XORs a word that does not depend on the hash, or nothing. -/
theorem hashTail_injective (key : Nat → Byte) (len : Nat) :
    Function.Injective fun h : Word => hashTail key len h := by
  intro x y h
  simp only [hashTail] at h
  split_ifs at h
  · exact (BitVec.xor_left_inj _).mp h
  · exact (BitVec.xor_left_inj _).mp h
  · exact (BitVec.xor_left_inj _).mp h
  · exact h

theorem murmur3_injective (key : Nat → Byte) (len : Word) :
    Function.Injective fun seed : Word => murmur3 key len seed :=
  (finalMix_injective len).comp ((hashTail_injective key len.toNat).comp (hashBlocks_injective key _))

/-- Settles O50: the steps of R146 are injective one after another. -/
theorem everySeedChangesTheHash : Obligations.EverySeedChangesTheHash :=
  fun key len _ _ hne => (murmur3_injective key len).ne hne

/-! ### What a computation leaves after each operation of the canonical stream

`s` is the state in which the computation was launched, `t` the one it has come to. -/

/-- A computation has taken `n` bytes of the key memory `m` in blocks; its hash is `h`, and nothing has been
delivered. -/
structure State.Computing (t : State) (m : List Host.Cell) (n : Nat) (h : Word) : Prop where
  err : t.err = false
  valid : t.valid = false
  key : t.key = m
  p : t.p.toNat = n
  hash : t.h = h

/-- A computation has ended: `n` bytes of `m` were taken in blocks, and `r` was delivered. -/
structure State.Delivered (t : State) (m : List Host.Cell) (n : Nat) (r : Word) : Prop where
  err : t.err = false
  valid : t.valid = true
  key : t.key = m
  p : t.p.toNat = n
  result : t.result = r
  hash : t.h = t.result

/-- After `init seed` and `n` blocks. -/
abbrev State.Absorbed (t s : State) (seed : Word) (n : Nat) : Prop :=
  t.Computing s.key (4 * n) (hashBlocks s.keyFn seed n)

/-- After the tail. -/
abbrev State.Tailed (t s : State) (seed len : Word) : Prop :=
  t.Computing s.key (4 * (len.toNat / 4))
    (hashTail s.keyFn len.toNat (hashBlocks s.keyFn seed (len.toNat / 4)))

/-- After `final len`. -/
abbrev State.Hashed (t s : State) (seed len : Word) : Prop :=
  t.Delivered s.key (4 * (len.toNat / 4)) (murmur3 s.keyFn len seed)

theorem State.keyFn_eq_of_key_eq {s t : State} (h : s.key = t.key) : s.keyFn = t.keyFn := by
  funext i
  rw [State.keyFn, State.keyFn, h]

theorem State.klen_lt_of_wf {s : State} (hwf : Memory.wf s.key = true) : s.klen < 2 ^ 32 := by
  simp only [Memory.wf, Bool.and_eq_true, decide_eq_true_eq] at hwf
  exact hwf.2

section
variable {s t : State} {m : List Host.Cell} {n : Nat} {h seed len : Word}

theorem State.Computing.setPhase (hc : t.Computing m n h) (ph : Phase) : (t.setPhase ph).Computing m n h :=
  ⟨hc.err, hc.valid, hc.key, hc.p, hc.hash⟩

theorem State.Computing.setTurns (hc : t.Computing m n h) (ts : List Turn) : (t.setTurns ts).Computing m n h :=
  ⟨hc.err, hc.valid, hc.key, hc.p, hc.hash⟩

theorem State.Delivered.setPhase (hd : t.Delivered m n h) (ph : Phase) : (t.setPhase ph).Delivered m n h :=
  ⟨hd.err, hd.valid, hd.key, hd.p, hd.result, hd.hash⟩

/-- An operation between `init` and `final` lets the computation go on. -/
theorem State.Computing.goesOn {i : Instr} {n' : Nat} {h' : Word} (hc : t.Computing m n h)
    (hi : ∀ seed, i ≠ .init seed) (hf : ∀ len, i ≠ .final len) (hp : (opEffect i t).p.toNat = n')
    (hh : (opEffect i t).h = h') : (opEffect i t).Computing m n' h' where
  err := (opEffect_err i t).trans hc.err
  valid := (opEffect_valid t hi hf).trans hc.valid
  key := (opEffect_key i t).trans hc.key
  p := hp
  hash := hh

/-- A byte read inside the key is the contract's byte (R41). -/
theorem State.Computing.keyByte (hwf : Memory.wf s.key = true) (hc : t.Computing s.key n h) {i : Nat}
    (hi : n + i < s.klen) : t.keyByte i = s.keyFn (n + i) := by
  have hin : n + i < t.klen := by rwa [State.klen, hc.key]
  rw [State.keyByte, State.keyAddr, hc.p, State.memRead_of_lt (hc.key ▸ hwf) hin, hc.key, State.keyFn]

/-- `init seed` begins a computation, whatever the registers held (R100). -/
theorem absorbed_init (he : t.err = false) (hk : t.key = s.key) : (opEffect (.init seed) t).Absorbed s seed 0 where
  err := (opEffect_err _ t).trans he
  valid := opEffect_init_valid t seed
  key := (opEffect_key _ t).trans hk
  p := congrArg BitVec.toNat (opEffect_init_p t seed)
  hash := opEffect_init_h t seed

/-- `block` takes in the next chunk (R110), as long as it stands inside the key. -/
theorem State.Computing.block (hwf : Memory.wf s.key = true) (hc : t.Absorbed s seed n)
    (hn : 4 * n + 4 ≤ s.klen) : (opEffect .block t).Absorbed s seed (n + 1) := by
  have hklen := State.klen_lt_of_wf hwf
  have hp : (opEffect .block t).p.toNat = 4 * (n + 1) := by
    rw [opEffect_block_p, toNat_add_four, hc.p, Nat.mod_eq_of_lt (by omega), Nat.mul_succ]
  have hchunk : t.chunkWord = lepack4 (s.keyFn (4 * n)) (s.keyFn (4 * n + 1)) (s.keyFn (4 * n + 2))
      (s.keyFn (4 * n + 3)) := by
    rw [State.chunkWord, hc.keyByte hwf (by omega), hc.keyByte hwf (by omega), hc.keyByte hwf (by omega),
      hc.keyByte hwf (by omega), Nat.add_zero]
  have hh : (opEffect .block t).h = hashBlocks s.keyFn seed (n + 1) := by
    rw [opEffect_block_h, hc.hash, hchunk, ← chunkStep_eq_blockMix, hashBlocks]
  exact hc.goesOn nofun nofun hp hh

/-- The tail of `LENR[1:0]` takes in the trailing bytes (R121 to R124). -/
theorem State.Computing.tail (hwf : Memory.wf s.key = true) (hc : t.Absorbed s seed (len.toNat / 4))
    (hlen : len.toNat ≤ s.klen) : (opEffect (tailOf (tailCount len)) t).Tailed s seed len := by
  have hp : (opEffect (tailOf (tailCount len)) t).p.toNat = 4 * (len.toNat / 4) := by
    rw [opEffect_tailOf_p, hc.p]
  have hh : (opEffect (tailOf (tailCount len)) t).h =
      hashTail s.keyFn len.toNat (hashBlocks s.keyFn seed (len.toNat / 4)) := by
    have hbyte {i : Nat} (hi : i < len.toNat % 4) := hc.keyByte (i := i) hwf (by omega)
    obtain ⟨hm, hi⟩ | ⟨hm, hi⟩ | ⟨hm, hi⟩ | ⟨hm, hi⟩ := tailOf_tailCount_cases len <;>
      rw [hi, ← hc.hash]
    · rw [hashTail_of_mod_four_eq_zero _ hm]
      rfl
    · rw [opEffect_tail1_h, State.tailWord1, hbyte (by omega)]
      simp [hashTail, hm, tailMix]
    · rw [opEffect_tail2_h, State.tailWord2, hbyte (by omega), hbyte (by omega)]
      simp [hashTail, hm, tailMix]
    · rw [opEffect_tail3_h, State.tailWord3, hbyte (by omega), hbyte (by omega), hbyte (by omega)]
      simp [hashTail, hm, tailMix]
  exact hc.goesOn (tailOf_ne_init _) (tailOf_ne_final _) hp hh

/-- `final len` delivers the contract's hash (R130). -/
theorem State.Computing.final (hc : t.Tailed s seed len) : (opEffect (.final len) t).Hashed s seed len where
  err := (opEffect_err _ t).trans hc.err
  valid := opEffect_final_valid t len
  key := (opEffect_key _ t).trans hc.key
  p := by simpa [opEffect] using hc.p
  result := by rw [opEffect_final_result, hc.hash, ← hashFinal_eq_finalMix, murmur3]
  hash := (opEffect_final_h t len).trans (opEffect_final_result t len).symm

end

/-! ### Runs, one step longer at the end -/

theorem runSteps_snoc {n : Nat} {s t : State} (h : runSteps n s = .next t) : runSteps (n + 1) s = step t := by
  induction n generalizing s with
  | zero =>
    cases h
    cases hstep : step t <;> simp [runSteps, hstep]
  | succ n ih =>
    rw [runSteps] at h
    rw [runSteps]
    split at h
    · exact ih h
    · cases h
    · cases h

/-! ### O43, O44, O51: the sequencer's run (R147) -/

/-- The sequencer drives a run over `len` bytes and is in phase `ph`; no turn is listed. -/
structure State.Sequencing (t : State) (len : Word) (ph : Phase) : Prop where
  turns : t.turns = []
  phase : t.phase = ph
  lenr : t.lenr = len

theorem State.Sequencing.issued {t : State} {len : Word} {ph : Phase} (hq : t.Sequencing len ph) (i : Instr)
    (ph' : Phase) : ((opEffect i t).setPhase ph').Sequencing len ph' where
  turns := (opEffect_turns i t).trans hq.turns
  phase := rfl
  lenr := (opEffect_lenr i t).trans hq.lenr

section
variable {s : State} {seed len : Word}

/-- The `START` and `n` block steps (R141, R142). -/
theorem run_absorb (hl : s.launch seed len) {n : Nat} (hn : n ≤ len.toNat / 4) :
    ∃ t, runSteps (n + 1) s = .next t ∧ t.Sequencing len .absorb ∧ t.Absorbed s seed n := by
  obtain ⟨hr, hts, hlen, hwf⟩ := hl
  induction n with
  | zero =>
    have he : ((s.setTurns []).setLenr len).err = false := (State.waits_of_ready hr).2
    exact ⟨_, (runSteps_snoc rfl).trans (step_of_start hts hr), ⟨by simp, rfl, by simp⟩,
      (absorbed_init he rfl).setPhase .absorb⟩
  | succ n ih =>
    obtain ⟨t, ht, hq, hc⟩ := ih (by omega)
    have hmore : t.p.toNat / 4 ≠ t.lenr.toNat / 4 := by
      rw [hc.p, hq.lenr]
      omega
    exact ⟨_, (runSteps_snoc ht).trans (step_of_block hq.turns hc.err hq.phase hmore), hq.issued .block .absorb,
      (hc.block hwf (by omega)).setPhase .absorb⟩

/-- The tail step (R143). -/
theorem run_tail (hl : s.launch seed len) :
    ∃ t, runSteps (len.toNat / 4 + 2) s = .next t ∧ t.Sequencing len .final ∧ t.Tailed s seed len := by
  obtain ⟨t, ht, hq, hc⟩ := run_absorb hl le_rfl
  obtain ⟨-, -, hlen, hwf⟩ := hl
  have hdone : t.p.toNat / 4 = t.lenr.toNat / 4 := by
    rw [hc.p, hq.lenr]
    omega
  have hstep := (runSteps_snoc ht).trans (step_of_tail hq.turns hc.err hq.phase hdone)
  rw [hq.lenr] at hstep
  exact ⟨_, hstep, hq.issued _ .final, (hc.tail hwf hlen).setPhase .final⟩

/-- The final step (R144). -/
theorem run_final (hl : s.launch seed len) :
    ∃ t, runSteps (len.toNat / 4 + 3) s = .next t ∧ t.Sequencing len .done ∧ t.Hashed s seed len := by
  obtain ⟨t, ht, hq, hc⟩ := run_tail hl
  have hstep := (runSteps_snoc ht).trans (step_of_final hq.turns hc.err hq.phase)
  rw [hq.lenr] at hstep
  exact ⟨_, hstep, hq.issued _ .done, hc.final.setPhase .done⟩

end

/-- `P` at the end of a computation: the bytes of the full chunks (R147). -/
theorem State.Delivered.toNat_p {t s : State} {seed len : Word} (hd : t.Hashed s seed len) :
    t.p.toNat = len.toNat - len.toNat % 4 := by
  rw [hd.p]
  omega

/-- Settles O43: the state at the end by `run_final`, and a waiting block rests. -/
theorem runComputesMurmur : Obligations.RunComputesMurmur := by
  intro s seed len hl
  obtain ⟨t, ht, hq, hd⟩ := run_final hl
  exact ⟨t, ht, hq.phase, hd.valid, hd.err, hd.result, hd.hash, hd.toNat_p, hq.lenr, hd.key,
    step_of_waiting hq.turns (State.waiting_iff.mpr (.inr hq.phase))⟩

/-- Settles O44: the first `len div 4 + 1` steps lead into `ABSORB`, the next one into `FINAL`. -/
theorem runIsBusyUntilItsLastStep : Obligations.RunIsBusyUntilItsLastStep := by
  intro s seed len n hl h1 hn
  obtain ⟨k, rfl⟩ := Nat.exists_eq_add_of_le' h1
  obtain hk | rfl : k ≤ len.toNat / 4 ∨ k = len.toNat / 4 + 1 := by omega
  · obtain ⟨t, ht, hq, hc⟩ := run_absorb hl hk
    exact ⟨t, ht, t.busy_iff.mpr (.inl hq.phase), hc.valid, hc.err⟩
  · obtain ⟨t, ht, hq, hc⟩ := run_tail hl
    exact ⟨t, ht, t.busy_iff.mpr (.inr hq.phase), hc.valid, hc.err⟩

/-- Settles O51: both runs end as `run_final` says, which names nothing of the launch state but its key. -/
theorem runsAreDeterministic : Obligations.RunsAreDeterministic := by
  intro s t s' t' seed len hs ht hkey hs' ht'
  obtain ⟨u, hu, -, hdu⟩ := run_final hs
  obtain ⟨v, hv, -, hdv⟩ := run_final ht
  cases hu.symm.trans hs'
  cases hv.symm.trans ht'
  have hresult : s'.result = t'.result := by
    rw [hdu.result, hdv.result, State.keyFn_eq_of_key_eq hkey]
  have hp : s'.p = t'.p := BitVec.eq_of_toNat_eq (hdu.p.trans hdv.p.symm)
  exact ⟨hresult, hdu.hash.trans (hresult.trans hdv.hash.symm), hp, s'.validOut_iff.mpr ⟨hdu.valid, hdu.err⟩,
    t'.validOut_iff.mpr ⟨hdv.valid, hdv.err⟩⟩

/-! ### O45: the canonical stream in direct drive (R148) -/

/-- A harness drives the port, with the words of `is` still to present; the sequencer's registers are those of
`s`. -/
structure State.Driven (t s : State) (is : List Instr) : Prop where
  turns : t.turns = (is.map encode).map .present
  phase : t.phase = s.phase
  lenr : t.lenr = s.lenr

/-- A step takes the next word, and its operation runs on the state with the words after it. -/
theorem step_of_driven {s t : State} {i : Instr} {is : List Instr} (hd : t.Driven s (i :: is))
    (he : t.err = false) : ∃ ts, step t = .next (opEffect i (t.setTurns ts)) ∧
      (opEffect i (t.setTurns ts)).Driven s is := by
  refine ⟨(is.map encode).map .present, ?_, ?_, ?_, ?_⟩
  · rw [step_of_present hd.turns, presentWord_of_legal _ (decode_encode i)]
    exact exec_of_err_clear i he
  · exact opEffect_turns i _
  · exact (opEffect_phase i _).trans hd.phase
  · exact (opEffect_lenr i _).trans hd.lenr

section
variable {s : State} {seed len : Word}

/-- `init` and `n` of the blocks, with `r` blocks still to present. -/
theorem drive_absorb (hl : s.directLaunch seed len) {n r : Nat} (hn : n + r = len.toNat / 4) :
    ∃ t, runSteps (n + 1) s = .next t ∧
      t.Driven s (List.replicate r .block ++ [tailOf (tailCount len), .final len]) ∧ t.Absorbed s seed n := by
  obtain ⟨he, hts, hlen, hwf⟩ := hl
  induction n generalizing r with
  | zero =>
    obtain rfl : r = len.toNat / 4 := by omega
    have hd : s.Driven s (canonicalStream seed len) := ⟨hts, rfl, rfl⟩
    obtain ⟨ts, hstep, hd⟩ := step_of_driven hd he
    exact ⟨_, (runSteps_snoc rfl).trans hstep, hd, absorbed_init he rfl⟩
  | succ n ih =>
    obtain ⟨t, ht, hd, hc⟩ := ih (r := r + 1) (by omega)
    obtain ⟨ts, hstep, hd⟩ := step_of_driven hd hc.err
    exact ⟨_, (runSteps_snoc ht).trans hstep, hd, (hc.setTurns ts).block hwf (by omega)⟩

/-- The whole stream. -/
theorem drive_final (hl : s.directLaunch seed len) :
    ∃ t, runSteps (len.toNat / 4 + 3) s = .next t ∧ t.Driven s [] ∧ t.Hashed s seed len := by
  obtain ⟨t, ht, hd, hc⟩ := drive_absorb hl (Nat.add_zero _)
  obtain ⟨-, -, hlen, hwf⟩ := hl
  obtain ⟨ts, hstep, hd⟩ := step_of_driven hd hc.err
  have hc := (hc.setTurns ts).tail hwf hlen
  obtain ⟨ts', hstep', hd⟩ := step_of_driven hd hc.err
  exact ⟨_, (runSteps_snoc ((runSteps_snoc ht).trans hstep)).trans hstep', hd, (hc.setTurns ts').final⟩

end

/-- Settles O45, by `drive_final`. -/
theorem directDriveComputesTheSame : Obligations.DirectDriveComputesTheSame := by
  intro s seed len hl
  obtain ⟨t, ht, hd, hf⟩ := drive_final hl
  exact ⟨t, ht, hf.result, hf.hash, hf.toNat_p, hf.valid, hf.err, hd.phase, hd.lenr⟩

end Sys2Proof.Machine
end

section
/-! ## The exceptions family: the fault `IllegalOp`, and a machine that no word and no run ever stops -/

namespace Sys2Proof.Machine

/-! ### O33: the assembled block's invariant (R165, R37, R147) -/

/-- A turn taken from an assembled block's list leaves such a list. -/
theorem State.assembledInv_dropTurn {s : State} (h : s.assembledInv) :
    (s.setTurns s.turns.tail).assembledInv := by
  obtain ⟨hts, hregs⟩ := h
  refine ⟨?_, hregs⟩
  rw [List.all_eq_true] at hts ⊢
  exact fun x hx => hts x (List.mem_of_mem_tail hx)

/-- An assembled block's list presents no word. -/
theorem State.assembledInv_turns_ne_present {s : State} (h : s.assembledInv) (w : OpWord) (rest : List Turn) :
    s.turns ≠ .present w :: rest := by
  obtain ⟨hts, -⟩ := h
  intro hw
  simp [hw, Turn.assembled] at hts

/-- Reset enters `IDLE`, of whose registers the invariant asks only `VALID = 0` and no fault. -/
theorem applyReset_assembledInv {s : State} (h : s.assembledInv) : (applyReset s).assembledInv := by
  obtain ⟨hts, -⟩ := h
  exact ⟨hts, by simp⟩

/-- An accepted `START` enters `ABSORB` with `P = 0` and `VALID = 0` (R141). -/
theorem acceptedStart_assembledInv {s : State} (h : s.assembledInv) (seed len : Word) :
    ((opEffect (.init seed) (s.setLenr len)).setPhase .absorb).assembledInv := by
  obtain ⟨hts, he, hc, -⟩ := h
  exact ⟨by simpa using hts, by simp [he, hc]⟩

/-- A `block` is issued only below the last full chunk, so adding 4 neither passes `LENR` nor wraps (R142). -/
theorem issuedBlock_assembledInv {s : State} (h : s.assembledInv) (hph : s.phase = .absorb)
    (hb : blockCount s.p ≠ blockCount s.lenr) : ((opEffect .block s).setPhase .absorb).assembledInv := by
  obtain ⟨hts, he, hc, hv, habsorb, -, -⟩ := h
  obtain ⟨hp4, hple⟩ := habsorb hph
  have hp : (s.p + 4).toNat % 4 = 0 ∧ (s.p + 4).toNat ≤ s.lenr.toNat := by
    rw [Ne, blockCount_eq_iff] at hb
    have hlenr := s.lenr.isLt
    rw [toNat_add_four]
    omega
  exact ⟨by simpa using hts, by simpa [opEffect_valid, he, hc, hv, hph] using hp⟩

/-- The `tail` is issued at the last full chunk, where `P` is `LENR` rounded down, and does not move `P` (R143). -/
theorem issuedTail_assembledInv {s : State} (h : s.assembledInv) (hph : s.phase = .absorb)
    (hb : blockCount s.p = blockCount s.lenr) :
    ((opEffect (tailOf (tailCount s.lenr)) s).setPhase .final).assembledInv := by
  obtain ⟨hts, he, hc, hv, habsorb, -, -⟩ := h
  obtain ⟨hp4, hple⟩ := habsorb hph
  have hp : s.p.toNat = s.lenr.toNat - s.lenr.toNat % 4 := by
    rw [blockCount_eq_iff] at hb
    omega
  exact ⟨by simpa using hts,
    by simpa [opEffect_valid, opEffect_tailOf_p, tailOf_ne_init, tailOf_ne_final, he, hc, hv, hph] using hp⟩

/-- The `final` sets `VALID`, delivers `H` in `RESULT` and does not move `P` (R144). -/
theorem issuedFinal_assembledInv {s : State} (h : s.assembledInv) (hph : s.phase = .final) :
    ((opEffect (.final s.lenr) s).setPhase .done).assembledInv := by
  obtain ⟨hts, he, hc, -, -, hp, -⟩ := h
  exact ⟨by simpa using hts, by simpa [opEffect_p, he, hc] using hp (.inl hph)⟩

theorem StepMove.assembledInv {s t : State} (hm : StepMove s t) (h : s.assembledInv) : t.assembledInv := by
  have hu : (s.setTurns s.turns.tail).assembledInv := State.assembledInv_dropTurn h
  cases hm with
  | stay | fillKey => exact hu
  | reset => exact applyReset_assembledInv hu
  | start => exact acceptedStart_assembledInv hu _ _
  | present hts | illegal hts => exact absurd hts (State.assembledInv_turns_ne_present h _ _)
  | issueBlock _ hp hc => exact issuedBlock_assembledInv hu hp hc
  | issueTail _ hp hc => exact issuedTail_assembledInv hu hp hc
  | issueFinal _ hp => exact issuedFinal_assembledInv hu hp

/-- Settles O33: each move of a step keeps the invariant. -/
theorem everyStepKeepsAssembledInv : Obligations.EveryStepKeepsAssembledInv :=
  fun _ _ h hstep => (stepMove_of_step hstep).assembledInv h

/-! ### O17: the faulted datapath (R163) -/

theorem presentWord_of_err {s : State} (w : OpWord) (he : s.err = true) : presentWord w s = .next s := by
  cases hw : decode w with
  | legal i => rw [presentWord_of_legal s hw, exec_of_err i he]
  | illegal c => rw [presentWord_of_illegal s hw, raiseIllegalOp, if_pos he]

/-- While `ERR = 1` a step that is no reset takes its turn off the list, and at most places a key. -/
theorem StepMove.eq_of_err {s t : State} (hm : StepMove s t) (he : s.err = true)
    (hnr : ∀ rest, s.turns ≠ .host .reset :: rest) :
    t = s.setTurns s.turns.tail ∨ ∃ m, t = (s.setTurns s.turns.tail).setKey m := by
  cases hm with
  | stay => exact .inl rfl
  | fillKey => exact .inr ⟨_, rfl⟩
  | reset hts => exact absurd hts (hnr _)
  | start _ hr => simp [s.ready_iff, he] at hr
  | present _ _ h | illegal _ _ h | issueBlock h | issueTail h | issueFinal h => simp [he] at h

/-- Settles O17: the port's guard ignores the word, and `StepMove.eq_of_err` says what a step still does. -/
theorem faultedDatapathIgnoresWords : Obligations.FaultedDatapathIgnoresWords := by
  intro s he
  refine ⟨fun w => presentWord_of_err w he, fun i => exec_of_err i he, by simp [State.ready, he],
    by simp [State.validOut, he], rfl, fun t h hnr => ?_⟩
  obtain rfl | ⟨m, rfl⟩ := (stepMove_of_step h).eq_of_err he hnr <;> exact ⟨he, rfl, id⟩

/-! ### O18: the code of the cause (R161) -/

theorem ecauseCode_of_illegal {w : OpWord} {c : Cause} (hw : decode w = .illegal c) :
    ecauseCode (some c) = if 5 ≤ w.toNat / 2 ^ 32 then 0b01 else 0b10 := by
  cases c with
  | reservedOpcode => rw [if_pos ((decode_eq_reservedOpcode_iff w).mp hw), ecauseCode]
  | reservedBits =>
    have hop : ¬ 5 ≤ w.toNat / 2 ^ 32 := fun h => by simp [decode_of_op_ge_five h] at hw
    rw [if_neg hop, ecauseCode]

/-- Settles O18: the next state is `setFault`'s, and `ecauseCode_of_illegal` tells the code. -/
theorem illegalOpSetsTheCause : Obligations.IllegalOpSetsTheCause := by
  intro w c s hw hs
  exact ⟨s.setFault c, presentWord_of_illegal_of_err_clear hw hs, rfl,
    fun h => (ecauseCode_of_illegal hw).trans (if_pos h),
    fun h => (ecauseCode_of_illegal hw).trans (if_neg h.not_ge)⟩

/-! ### O39: what never stops the machine (R160, R147) -/

theorem exec_answers (i : Instr) (s : State) : ∃ t, exec i s = .next t :=
  ⟨_, exec_eq_datapath i s⟩

/-- A word on the port answers a next state, a legal one by its operation and an illegal one by its fault. -/
theorem presentWord_answers (w : OpWord) (s : State) : ∃ t, presentWord w s = .next t := by
  cases hw : decode w with
  | legal i => exact presentWord_of_legal s hw ▸ exec_answers i s
  | illegal c => exact ⟨_, presentWord_of_illegal s hw⟩

theorem issue_answers (i : Instr) (ph : Phase) (s : State) : ∃ t, issue i ph s = .next t := by
  obtain ⟨u, hu⟩ := presentWord_answers (encode i) s
  exact ⟨u.setPhase ph, by rw [issue, hu]⟩

theorem blockTurn_answers (s : State) : ∃ t, blockTurn s = .next t := by
  rw [blockTurn]
  split_ifs
  · exact ⟨s, rfl⟩
  · exact issue_answers _ _ s
  · exact issue_answers _ _ s
  · exact issue_answers _ _ s
  · exact ⟨s, rfl⟩

theorem startMove_answers (seed len : Word) (s : State) : ∃ t, startMove seed len s = .next t := by
  rw [startMove]
  split_ifs
  · exact issue_answers _ _ _
  · exact ⟨s, rfl⟩

/-- Placing a key stops the machine only where the host breaks its duty (log 4). -/
theorem fillKeyMove_answers_or (bytes : List Byte) (s : State) :
    (∃ t, fillKeyMove bytes s = .next t) ∨ s.busy = true ∨ 2 ^ 32 ≤ bytes.length := by
  rw [fillKeyMove]
  split_ifs with hb hlen
  · exact .inr (.inl hb)
  · exact .inl ⟨_, rfl⟩
  · exact .inr (.inr (not_lt.mp hlen))

/-- Settles O39: every turn but the placing of a key answers a next state. -/
theorem onlyKeyPlacingStops : Obligations.OnlyKeyPlacingStops := by
  intro s
  match hts : s.turns with
  | [] => exact .inl (step_of_no_turns hts ▸ blockTurn_answers s)
  | x :: rest =>
    rw [step_of_turns hts]
    match x with
    | .block => exact .inl (blockTurn_answers _)
    | .present w => exact .inl (presentWord_answers w _)
    | .host .reset => exact .inl ⟨_, rfl⟩
    | .host (.start seed len) => exact .inl (startMove_answers seed len _)
    | .host (.fillKey bytes) =>
      exact (fillKeyMove_answers_or bytes (s.setTurns rest)).imp_right fun h => ⟨bytes, rest, rfl, h⟩

end Sys2Proof.Machine
end

section
/-! ## The reset family: reset from any state, and a result that rests in `DONE` -/

namespace Sys2Proof.Machine

/-! ### O22: reset (R180) -/

/-- All bits of `STATUS` are 0 after reset, since `PHASE`, `ECAUSE` and the flags are fixed by it (R31, R36). -/
theorem applyReset_status (s : State) : (applyReset s).status = 0x00 := by
  simp [State.status, State.busy, phaseCode, ecauseCode]

/-- Settles O22: the step is `applyReset`, whose flags and phase are fixed values. -/
theorem resetFromAnyState : Obligations.ResetFromAnyState :=
  fun _ _ hts => ⟨_, step_of_reset hts, rfl, rfl, rfl, rfl, rfl, rfl, rfl, rfl, applyReset_status _⟩

/-! ### O42: in `DONE` nothing moves before the next accepted `START` or reset (R183) -/

/-- Where every listed turn is an assembled block's, the next one presents no word (R60). -/
theorem turns_ne_present_of_assembled {ts : List Turn} (hts : ts.all Turn.assembled = true) (w : OpWord)
    (rest : List Turn) : ts ≠ .present w :: rest := by
  rintro rfl
  simp [Turn.assembled] at hts

/-- In `DONE` the sequencer rests, so a step that is neither a reset nor an accepted `START` takes its turn off
the list, and at most places a key. -/
theorem StepMove.eq_of_done {s t : State} (hm : StepMove s t) (hd : s.phase = .done)
    (hts : s.turns.all Turn.assembled = true) (hnr : ∀ rest, s.turns ≠ .host .reset :: rest)
    (hns : s.ready = true → ∀ seed len rest, s.turns ≠ .host (.start seed len) :: rest) :
    t = s.setTurns s.turns.tail ∨ ∃ m, t = (s.setTurns s.turns.tail).setKey m := by
  cases hm with
  | stay => exact .inl rfl
  | fillKey => exact .inr ⟨_, rfl⟩
  | reset h => exact absurd h (hnr _)
  | start h hr => exact absurd h (hns hr _ _ _)
  | present h | illegal h => exact absurd h (turns_ne_present_of_assembled hts _ _)
  | issueBlock _ hp | issueTail _ hp | issueFinal _ hp => simp [hd] at hp

/-- Settles O42: neither a turn taken off the list nor a placed key touches what the host reads of the result. -/
theorem resultStaysUntilTheNextStart : Obligations.ResultStaysUntilTheNextStart := by
  intro s t hd hts h hnr hns
  obtain rfl | ⟨m, rfl⟩ := (stepMove_of_step h).eq_of_done hd hts hnr hns <;> exact ⟨hd, rfl, rfl⟩

end Sys2Proof.Machine
end
